-- ==== Sys2Proof/Word.lean ====
section
/-! DEFINITION. The widths of 00_scope.md R6: every value of the core is an unsigned integer of one of these widths. -/

namespace Sys2Proof

/-- 4 bits: register indices x and y, the row count n, key indices (R6). -/
abbrev Nibble := BitVec 4

/-- 8 bits: V registers, timers, memory cells, the immediate kk (R6). -/
abbrev Byte := BitVec 8

/-- 12 bits: the address field nnn (R6). -/
abbrev Addr := BitVec 12

/-- 16 bits: PC, I, stack slots, opcodes (R6). -/
abbrev Word := BitVec 16

end Sys2Proof
end

