-- ==== Sys2Proof/Syntax.lean ====
section
/-! DEFINITION. The 34 instructions of 30_encoding.md R74 and R75, one constructor for each row of
spec/opcode_table.json. Operands have exactly the widths of R71, so every term of `Instr` is an instruction. -/

namespace Sys2Proof

/-- The explicit instruction value of 00_scope.md R11 and 30_encoding.md R82. -/
inductive Instr where
  /-- `00E0` CLS (R140) -/
  | cls
  /-- `00EE` RET (R161) -/
  | ret
  /-- `1nnn` JP nnn (R162) -/
  | jp (nnn : Addr)
  /-- `2nnn` CALL nnn (R163) -/
  | call (nnn : Addr)
  /-- `3xkk` SE Vx, kk (R164) -/
  | seImm (x : Nibble) (kk : Byte)
  /-- `4xkk` SNE Vx, kk (R165) -/
  | sneImm (x : Nibble) (kk : Byte)
  /-- `5xy0` SE Vx, Vy (R166) -/
  | seReg (x y : Nibble)
  /-- `6xkk` LD Vx, kk (R100) -/
  | ldImm (x : Nibble) (kk : Byte)
  /-- `7xkk` ADD Vx, kk (R101) -/
  | addImm (x : Nibble) (kk : Byte)
  /-- `8xy0` LD Vx, Vy (R102) -/
  | ldReg (x y : Nibble)
  /-- `8xy1` OR Vx, Vy (R103) -/
  | orReg (x y : Nibble)
  /-- `8xy2` AND Vx, Vy (R104) -/
  | andReg (x y : Nibble)
  /-- `8xy3` XOR Vx, Vy (R105) -/
  | xorReg (x y : Nibble)
  /-- `8xy4` ADD Vx, Vy (R106) -/
  | addReg (x y : Nibble)
  /-- `8xy5` SUB Vx, Vy (R107) -/
  | sub (x y : Nibble)
  /-- `8xy6` SHR Vx {, Vy}; y is decoded and ignored (R108, R87) -/
  | shr (x y : Nibble)
  /-- `8xy7` SUBN Vx, Vy (R109) -/
  | subn (x y : Nibble)
  /-- `8xyE` SHL Vx {, Vy}; y is decoded and ignored (R110, R87) -/
  | shl (x y : Nibble)
  /-- `9xy0` SNE Vx, Vy (R167) -/
  | sneReg (x y : Nibble)
  /-- `Annn` LD I, nnn (R120) -/
  | ldI (nnn : Addr)
  /-- `Bnnn` JP V0, nnn (R168) -/
  | jpV0 (nnn : Addr)
  /-- `Cxkk` RND Vx, kk (R180) -/
  | rnd (x : Nibble) (kk : Byte)
  /-- `Dxyn` DRW Vx, Vy, n (R142) -/
  | drw (x y n : Nibble)
  /-- `Ex9E` SKP Vx (R181) -/
  | skp (x : Nibble)
  /-- `ExA1` SKNP Vx (R182) -/
  | sknp (x : Nibble)
  /-- `Fx07` LD Vx, DT (R183) -/
  | ldVxDt (x : Nibble)
  /-- `Fx0A` LD Vx, K (R184) -/
  | ldVxK (x : Nibble)
  /-- `Fx15` LD DT, Vx (R185) -/
  | ldDtVx (x : Nibble)
  /-- `Fx18` LD ST, Vx (R186) -/
  | ldStVx (x : Nibble)
  /-- `Fx1E` ADD I, Vx (R121) -/
  | addI (x : Nibble)
  /-- `Fx29` LD F, Vx (R122) -/
  | ldF (x : Nibble)
  /-- `Fx33` LD B, Vx (R123) -/
  | ldB (x : Nibble)
  /-- `Fx55` LD [I], Vx (R124) -/
  | ldMemVx (x : Nibble)
  /-- `Fx65` LD Vx, [I] (R125) -/
  | ldVxMem (x : Nibble)
deriving DecidableEq, Repr

/-- The mnemonic of the instruction's row in spec/opcode_table.json, letter for letter (a name only: R78). -/
def Instr.mnemonic : Instr → String
  | .cls => "CLS"
  | .ret => "RET"
  | .jp _ => "JP"
  | .call _ => "CALL"
  | .seImm _ _ => "SE_imm"
  | .sneImm _ _ => "SNE_imm"
  | .seReg _ _ => "SE_reg"
  | .ldImm _ _ => "LD_imm"
  | .addImm _ _ => "ADD_imm"
  | .ldReg _ _ => "LD_reg"
  | .orReg _ _ => "OR"
  | .andReg _ _ => "AND"
  | .xorReg _ _ => "XOR"
  | .addReg _ _ => "ADD_reg"
  | .sub _ _ => "SUB"
  | .shr _ _ => "SHR"
  | .subn _ _ => "SUBN"
  | .shl _ _ => "SHL"
  | .sneReg _ _ => "SNE_reg"
  | .ldI _ => "LD_I"
  | .jpV0 _ => "JP_V0"
  | .rnd _ _ => "RND"
  | .drw _ _ _ => "DRW"
  | .skp _ => "SKP"
  | .sknp _ => "SKNP"
  | .ldVxDt _ => "LD_Vx_DT"
  | .ldVxK _ => "LD_Vx_K"
  | .ldDtVx _ => "LD_DT_Vx"
  | .ldStVx _ => "LD_ST_Vx"
  | .addI _ => "ADD_I"
  | .ldF _ => "LD_F"
  | .ldB _ => "LD_B"
  | .ldMemVx _ => "LD_mem_Vx"
  | .ldVxMem _ => "LD_Vx_mem"

end Sys2Proof
end

