-- ==== Sys2Proof/WellFormed.lean ====
section
/-! DEFINITION. Which 16-bit words are instructions: the opcode map of 30_encoding.md R73 and R74 as a list of rows,
written apart from the decoder. The fields of `Instr` have the widths of R71, so a term of `Instr` cannot be ill formed;
what can be ill formed is a WORD, and `wellFormedWord` is the check. -/

namespace Sys2Proof

/-- One row of the opcode map: the four nibbles of its pattern, most significant first; `none` where the pattern has a
field letter (R73: in this instruction set every field starts and ends at a nibble). -/
structure OpcodeRow where
  mnemonic : String
  n1 : Nibble
  n2 : Option Nibble
  n3 : Option Nibble
  n4 : Option Nibble
deriving DecidableEq, Repr

/-- Does a pattern's nibble admit this nibble of the word? -/
def nibbleFits (p : Option Nibble) (n : Nibble) : Bool :=
  match p with
  | none => true
  | some v => v == n

/-- Does the word match the row's pattern? -/
def OpcodeRow.covers (r : OpcodeRow) (w : Word) : Bool :=
  r.n1 == w.extractLsb' 12 4 && nibbleFits r.n2 (w.extractLsb' 8 4) &&
    nibbleFits r.n3 (w.extractLsb' 4 4) && nibbleFits r.n4 (w.extractLsb' 0 4)

/-- Families 0x0 to 0x7 (R74). -/
def opcodeRows0to7 : List OpcodeRow :=
  [ ⟨"CLS", 0x0, (some 0x0), (some 0xE), (some 0x0)⟩,
    ⟨"RET", 0x0, (some 0x0), (some 0xE), (some 0xE)⟩,
    ⟨"JP", 0x1, none, none, none⟩,
    ⟨"CALL", 0x2, none, none, none⟩,
    ⟨"SE_imm", 0x3, none, none, none⟩,
    ⟨"SNE_imm", 0x4, none, none, none⟩,
    ⟨"SE_reg", 0x5, none, none, (some 0x0)⟩,
    ⟨"LD_imm", 0x6, none, none, none⟩,
    ⟨"ADD_imm", 0x7, none, none, none⟩ ]

/-- Family 0x8, selected by nibble 4 (R74). -/
def opcodeRows8 : List OpcodeRow :=
  [ ⟨"LD_reg", 0x8, none, none, (some 0x0)⟩,
    ⟨"OR", 0x8, none, none, (some 0x1)⟩,
    ⟨"AND", 0x8, none, none, (some 0x2)⟩,
    ⟨"XOR", 0x8, none, none, (some 0x3)⟩,
    ⟨"ADD_reg", 0x8, none, none, (some 0x4)⟩,
    ⟨"SUB", 0x8, none, none, (some 0x5)⟩,
    ⟨"SHR", 0x8, none, none, (some 0x6)⟩,
    ⟨"SUBN", 0x8, none, none, (some 0x7)⟩,
    ⟨"SHL", 0x8, none, none, (some 0xE)⟩ ]

/-- Families 0x9 to 0xE (R74). -/
def opcodeRows9toE : List OpcodeRow :=
  [ ⟨"SNE_reg", 0x9, none, none, (some 0x0)⟩,
    ⟨"LD_I", 0xA, none, none, none⟩,
    ⟨"JP_V0", 0xB, none, none, none⟩,
    ⟨"RND", 0xC, none, none, none⟩,
    ⟨"DRW", 0xD, none, none, none⟩,
    ⟨"SKP", 0xE, none, (some 0x9), (some 0xE)⟩,
    ⟨"SKNP", 0xE, none, (some 0xA), (some 0x1)⟩ ]

/-- Family 0xF, selected by kk (R74). -/
def opcodeRowsF : List OpcodeRow :=
  [ ⟨"LD_Vx_DT", 0xF, none, (some 0x0), (some 0x7)⟩,
    ⟨"LD_Vx_K", 0xF, none, (some 0x0), (some 0xA)⟩,
    ⟨"LD_DT_Vx", 0xF, none, (some 0x1), (some 0x5)⟩,
    ⟨"LD_ST_Vx", 0xF, none, (some 0x1), (some 0x8)⟩,
    ⟨"ADD_I", 0xF, none, (some 0x1), (some 0xE)⟩,
    ⟨"LD_F", 0xF, none, (some 0x2), (some 0x9)⟩,
    ⟨"LD_B", 0xF, none, (some 0x3), (some 0x3)⟩,
    ⟨"LD_mem_Vx", 0xF, none, (some 0x5), (some 0x5)⟩,
    ⟨"LD_Vx_mem", 0xF, none, (some 0x6), (some 0x5)⟩ ]

/-- The 34 rows of the opcode map (R74). -/
def opcodeTable : List OpcodeRow :=
  opcodeRows0to7 ++ opcodeRows8 ++ opcodeRows9toE ++ opcodeRowsF

/-- A word is an instruction when some row covers it; every other word is undefined (R76). -/
def wellFormedWord (w : Word) : Bool :=
  opcodeTable.any (fun r => r.covers w)

end Sys2Proof
end

