-- ==== Sys2Proof/Decode.lean ====
section
/-! DEFINITION. The decoder of 30_encoding.md R75, total on any bytes and refusing by name, and the encoder written from
the formats of R73. -/

namespace Sys2Proof

/-- Nibble 1, the family `f = op[15:12]` (R71). -/
def opF (op : Word) : Nibble := op.extractLsb' 12 4

/-- Nibble 2, `x = op[11:8]` (R71). -/
def opX (op : Word) : Nibble := op.extractLsb' 8 4

/-- Nibble 3, `y = op[7:4]` (R71). -/
def opY (op : Word) : Nibble := op.extractLsb' 4 4

/-- Nibble 4, `n = op[3:0]` (R71). -/
def opN (op : Word) : Nibble := op.extractLsb' 0 4

/-- The low byte, `kk = op[7:0]` (R71). -/
def opKK (op : Word) : Byte := op.extractLsb' 0 8

/-- The low 12 bits, `nnn = op[11:0]` (R71). -/
def opNNN (op : Word) : Addr := op.extractLsb' 0 12

/-- Why bytes do not decode. -/
inductive DecodeError where
  /-- The opcode matches no pattern (R75, R76): the `UnknownOpcode(op)` of the spec. -/
  | unknownOpcode (op : Word)
  /-- Fewer than the two bytes of an instruction were given (R70). The machine's fetch always gives two. -/
  | tooFewBytes
deriving DecidableEq, Repr

/-- Family 0x0 of R75: only the two exact words are instructions. -/
def decodeFamily0 (op : Word) : Except DecodeError Instr :=
  if op = 0x00E0#16 then .ok .cls
  else if op = 0x00EE#16 then .ok .ret
  else .error (.unknownOpcode op)

/-- Family 0x8 of R75, by nibble 4. -/
def decodeFamily8 (op : Word) : Except DecodeError Instr :=
  match (opN op).toNat with
  | 0x0 => .ok (.ldReg (opX op) (opY op))
  | 0x1 => .ok (.orReg (opX op) (opY op))
  | 0x2 => .ok (.andReg (opX op) (opY op))
  | 0x3 => .ok (.xorReg (opX op) (opY op))
  | 0x4 => .ok (.addReg (opX op) (opY op))
  | 0x5 => .ok (.sub (opX op) (opY op))
  | 0x6 => .ok (.shr (opX op) (opY op))
  | 0x7 => .ok (.subn (opX op) (opY op))
  | 0xE => .ok (.shl (opX op) (opY op))
  | _ => .error (.unknownOpcode op)

/-- Family 0xE of R75, by kk. -/
def decodeFamilyE (op : Word) : Except DecodeError Instr :=
  if opKK op = 0x9E#8 then .ok (.skp (opX op))
  else if opKK op = 0xA1#8 then .ok (.sknp (opX op))
  else .error (.unknownOpcode op)

/-- Family 0xF of R75, by kk. -/
def decodeFamilyF (op : Word) : Except DecodeError Instr :=
  if opKK op = 0x07#8 then .ok (.ldVxDt (opX op))
  else if opKK op = 0x0A#8 then .ok (.ldVxK (opX op))
  else if opKK op = 0x15#8 then .ok (.ldDtVx (opX op))
  else if opKK op = 0x18#8 then .ok (.ldStVx (opX op))
  else if opKK op = 0x1E#8 then .ok (.addI (opX op))
  else if opKK op = 0x29#8 then .ok (.ldF (opX op))
  else if opKK op = 0x33#8 then .ok (.ldB (opX op))
  else if opKK op = 0x55#8 then .ok (.ldMemVx (opX op))
  else if opKK op = 0x65#8 then .ok (.ldVxMem (opX op))
  else .error (.unknownOpcode op)

/-- `Decode(op)` of R75: a function of the opcode alone (R88). The last line cannot be reached: a nibble is at most 0xF. -/
def decodeWord (op : Word) : Except DecodeError Instr :=
  match (opF op).toNat with
  | 0x0 => decodeFamily0 op
  | 0x1 => .ok (.jp (opNNN op))
  | 0x2 => .ok (.call (opNNN op))
  | 0x3 => .ok (.seImm (opX op) (opKK op))
  | 0x4 => .ok (.sneImm (opX op) (opKK op))
  | 0x5 => if opN op = 0x0#4 then .ok (.seReg (opX op) (opY op)) else .error (.unknownOpcode op)
  | 0x6 => .ok (.ldImm (opX op) (opKK op))
  | 0x7 => .ok (.addImm (opX op) (opKK op))
  | 0x8 => decodeFamily8 op
  | 0x9 => if opN op = 0x0#4 then .ok (.sneReg (opX op) (opY op)) else .error (.unknownOpcode op)
  | 0xA => .ok (.ldI (opNNN op))
  | 0xB => .ok (.jpV0 (opNNN op))
  | 0xC => .ok (.rnd (opX op) (opKK op))
  | 0xD => .ok (.drw (opX op) (opY op) (opN op))
  | 0xE => decodeFamilyE op
  | 0xF => decodeFamilyF op
  | _ => .error (.unknownOpcode op)

/-- The opcode of two consecutive bytes: the byte at the lower address is the high byte (20_memory.md R52, R53). -/
def wordOfBytes (hi lo : Byte) : Word := hi ++ lo

/-- The byte of an opcode that stands at the lower address (R53). -/
def highByte (w : Word) : Byte := w.extractLsb' 8 8

/-- The byte of an opcode that stands at the higher address (R53). -/
def lowByte (w : Word) : Byte := w.extractLsb' 0 8

/-- Decode the instruction at the head of a byte sequence; every instruction is two bytes (R70, R77). -/
def decode : List Byte → Except DecodeError (Instr × List Byte)
  | hi :: lo :: rest => (decodeWord (wordOfBytes hi lo)).map (fun i => (i, rest))
  | _ => .error .tooFewBytes

/-- Format A of R73: `f nnn`. -/
def encodeA (f : Nibble) (nnn : Addr) : Word := f ++ nnn

/-- Formats XK and X of R73: `f x kk`, where X has a fixed kk. -/
def encodeXK (f x : Nibble) (kk : Byte) : Word := f ++ x ++ kk

/-- Formats XY and XYN of R73: `f x y n`, where XY has a fixed n. -/
def encodeXYN (f x y n : Nibble) : Word := f ++ x ++ y ++ n

/-- The word of an instruction (R73, R74). -/
def encode : Instr → Word
  | .cls => 0x00E0#16
  | .ret => 0x00EE#16
  | .jp nnn => encodeA 0x1 nnn
  | .call nnn => encodeA 0x2 nnn
  | .seImm x kk => encodeXK 0x3 x kk
  | .sneImm x kk => encodeXK 0x4 x kk
  | .seReg x y => encodeXYN 0x5 x y 0x0
  | .ldImm x kk => encodeXK 0x6 x kk
  | .addImm x kk => encodeXK 0x7 x kk
  | .ldReg x y => encodeXYN 0x8 x y 0x0
  | .orReg x y => encodeXYN 0x8 x y 0x1
  | .andReg x y => encodeXYN 0x8 x y 0x2
  | .xorReg x y => encodeXYN 0x8 x y 0x3
  | .addReg x y => encodeXYN 0x8 x y 0x4
  | .sub x y => encodeXYN 0x8 x y 0x5
  | .shr x y => encodeXYN 0x8 x y 0x6
  | .subn x y => encodeXYN 0x8 x y 0x7
  | .shl x y => encodeXYN 0x8 x y 0xE
  | .sneReg x y => encodeXYN 0x9 x y 0x0
  | .ldI nnn => encodeA 0xA nnn
  | .jpV0 nnn => encodeA 0xB nnn
  | .rnd x kk => encodeXK 0xC x kk
  | .drw x y n => encodeXYN 0xD x y n
  | .skp x => encodeXK 0xE x 0x9E
  | .sknp x => encodeXK 0xE x 0xA1
  | .ldVxDt x => encodeXK 0xF x 0x07
  | .ldVxK x => encodeXK 0xF x 0x0A
  | .ldDtVx x => encodeXK 0xF x 0x15
  | .ldStVx x => encodeXK 0xF x 0x18
  | .addI x => encodeXK 0xF x 0x1E
  | .ldF x => encodeXK 0xF x 0x29
  | .ldB x => encodeXK 0xF x 0x33
  | .ldMemVx x => encodeXK 0xF x 0x55
  | .ldVxMem x => encodeXK 0xF x 0x65

/-- The two bytes of an instruction as memory holds them (R53, R70). -/
def encodeBytes (i : Instr) : List Byte := [highByte (encode i), lowByte (encode i)]

/-- The word of the host's numbering (spec/opcode_table.json): the table gives every row 16 bits, bit 0 the least
significant; the bits above `nbits` are 0, and a longer instruction does not exist (R70). -/
def tableWord (nbits w : Nat) : Word := BitVec.ofNat 16 (w % 2 ^ nbits)

/-- The instruction the decoder reads from the table's word, laid out as memory holds it. -/
def decodeTableWord (nbits w : Nat) : Option Instr :=
  match decode [highByte (tableWord nbits w), lowByte (tableWord nbits w)] with
  | .ok (i, _) => some i
  | .error _ => none

end Sys2Proof
end

