-- ==== Sys2Proof/Config.lean ====
section
/-! DEFINITION. The implementation parameters of 00_scope.md R4 that rules compute with, and the one free value. -/

namespace Sys2Proof

/-- `MEM_SIZE`: 4096 cells (R4). -/
@[simp] abbrev Config.memSize : Nat := 4096

/-- `PROGRAM_BASE`: 0x200, where programs are loaded and the reset PC (R4). -/
@[simp] abbrev Config.programBase : Nat := 0x200

/-- `MAX_PROGRAM`: 3584 bytes, the largest accepted length (R4, 90_conflicts.md C2). -/
@[simp] abbrev Config.maxProgram : Nat := 3584

/-- `FONT_BASE`: 0x050 (R4). -/
@[simp] abbrev Config.fontBase : Nat := 0x050

/-- The random byte `rnd` of R4 and 44_timer_input_random.md R180: a FREE VALUE, one for each draw, numbered by
`State.draws`. It has no body, so every statement holds for every value of every draw; the numbering itself is the
model's. Log entry 2. -/
opaque Config.rnd : Nat → Byte

end Sys2Proof
end

