-- ==== Sys2Proof/Machine/State.lean ====
section
/-! DEFINITION. The architectural state of 10_state.md R20 (the complete list), the errors of 60_exceptions.md R200, and
the state after reset (R35). -/

namespace Sys2Proof.Machine

/-- Memory: the cells that differ from what an unlisted address reads as, by rising address (20_memory.md R50). The
operations and the canonical form are in Machine/Ops.lean. -/
abbrev Memory := List Host.Cell

/-- The framebuffer: 32 rows of 64 cells, `true` for on; the cell of column x and row y is `fb[y][x]` (R30). -/
abbrev Framebuffer := Vector (Vector Bool 64) 32

/-- The keypad: `key[k] = true` means key k is down (R31). -/
abbrev Keypad := Vector Bool 16

/-- The state of R20. There is no hidden state (R34) and no control or status register (R33). -/
structure State where
  /-- V0 to VF, VF being the flag register too (R21, R22). -/
  v : Vector Byte 16
  /-- The index register I (R23). -/
  i : Word
  /-- The program counter (R24). -/
  pc : Word
  /-- The stack pointer, 0 to 16: how many slots are live (R25). Log entry 6. -/
  sp : Fin 17
  /-- The 16 stack slots, which no address reaches (R26). -/
  stack : Vector Word 16
  /-- The delay timer DT (R27). -/
  dt : Byte
  /-- The sound timer ST (R28). -/
  st : Byte
  /-- The memory array (R29). -/
  mem : Memory
  /-- The framebuffer (R30). -/
  fb : Framebuffer
  /-- The keypad cells, which only the host writes (R31). -/
  key : Keypad
  /-- THE MODEL'S OWN: the number of the next draw, which picks its free value `Config.rnd` (00_scope.md R4). Cxkk moves it
  on and no operation, `reset` included, takes it back (10_state.md R34). Log entry 2. -/
  draws : Nat
deriving DecidableEq, Repr

/-- The errors of R200, with the information each records. An error ends the operation and the state stays as it was
before it (00_scope.md R8). All are safe: the spec itself raises them, and the model stops where the core returns `Err`. -/
inductive Fault where
  /-- Raised by the fetch of every step when `pc + 1 > 0xFFF` (R201). Safe. -/
  | outOfBoundsFetch (pc : Word)
  /-- Raised by the decode of a step when the opcode matches no pattern (R202). Safe. -/
  | unknownOpcode (op fetchPc : Word)
  /-- Raised by 2nnn when SP = 16 (R203). Safe. -/
  | stackOverflow (fetchPc op : Word)
  /-- Raised by 00EE when SP = 0 (R204). Safe. -/
  | stackUnderflow (fetchPc op : Word)
  /-- Raised by Ex9E and ExA1 when Vx > 0xF; `k` is the value of Vx (R205). Safe. -/
  | invalidKeyIndex (fetchPc op : Word) (k : Byte)
  /-- Raised by the host's `load-program` for more than 3584 bytes, never by a step (R206). Safe. -/
  | programTooLarge (length : Nat)
deriving DecidableEq, Repr

/-- The refusals of the model. -/
inductive Refusal where
  /-- Would be raised by an arm of `exec` whose instruction has no meaning. No arm does: every instruction is modelled.
  Safe. -/
  | notModelled (mnemonic : String)
deriving DecidableEq, Repr

/-- The state `reset` leaves, every field at its value of R35, with memory as the unlisted addresses read: the default
FONT at 0x050 to 0x09F and 0x00 elsewhere. For another FONT, and for a `reset` in the course of a run, see `resetWith` in
Machine/HostInterface.lean. `draws` is no element of R35: its 0 is the number of the first draw of a run that starts here,
a DESIGN CHOICE (log entry 2), and a `reset` in the course of a run does not go back to it. -/
def State.reset : State where
  v := Vector.replicate 16 0x00#8
  i := 0x0000#16
  pc := 0x0200#16
  sp := 0
  stack := Vector.replicate 16 0x0000#16
  dt := 0x00#8
  st := 0x00#8
  mem := []
  fb := Vector.replicate 32 (Vector.replicate 64 false)
  key := Vector.replicate 16 false
  draws := 0

end Sys2Proof.Machine
end

