-- ==== Sys2Proof/Machine/Ops.lean ====
section
/-! DEFINITION. The named operations over memory, registers, stack, framebuffer and program counter: the primitives of
00_scope.md R7, the access rules of 20_memory.md, and the one way to raise an error. -/

namespace Sys2Proof.Machine

/-! ### The font and what an unlisted address reads as -/

/-- The default font of 20_memory.md R55, glyphs 0 to 7. Log entry 1: the spec marks the bytes as general knowledge. -/
def fontLow : List Byte :=
  [0xF0, 0x90, 0x90, 0x90, 0xF0] ++ [0x20, 0x60, 0x20, 0x20, 0x70] ++
  [0xF0, 0x10, 0xF0, 0x80, 0xF0] ++ [0xF0, 0x10, 0xF0, 0x10, 0xF0] ++
  [0x90, 0x90, 0xF0, 0x10, 0x10] ++ [0xF0, 0x80, 0xF0, 0x10, 0xF0] ++
  [0xF0, 0x80, 0xF0, 0x90, 0xF0] ++ [0xF0, 0x10, 0x20, 0x40, 0x40]

/-- The default font of R55, glyphs 8 to F. Log entry 1. -/
def fontHigh : List Byte :=
  [0xF0, 0x90, 0xF0, 0x90, 0xF0] ++ [0xF0, 0x90, 0xF0, 0x10, 0xF0] ++
  [0xF0, 0x90, 0xF0, 0x90, 0x90] ++ [0xE0, 0x90, 0xE0, 0x90, 0xE0] ++
  [0xF0, 0x80, 0x80, 0x80, 0xF0] ++ [0xE0, 0x90, 0x90, 0x90, 0xE0] ++
  [0xF0, 0x80, 0xF0, 0x80, 0xF0] ++ [0xF0, 0x80, 0xF0, 0x80, 0x80]

/-- What an address that memory does not list reads as: the reset contents of R35 with the default FONT. For a core with
another FONT the cells that differ are listed (`resetWith`), so no meaning depends on these bytes. -/
def Memory.unlisted (a : Nat) : Byte :=
  if a < Config.fontBase then 0x00#8 else (fontLow ++ fontHigh).getD (a - Config.fontBase) 0x00#8

/-! ### Memory as data -/

/-- The canonical form from address `lo` on: rising addresses below 4096, no cell equal to what it would read as unlisted. -/
def Memory.wfFrom : Nat → Memory → Bool
  | _, [] => true
  | lo, (a, b) :: m =>
    decide (lo ≤ a) && decide (a < Config.memSize) && (b != Memory.unlisted a) && Memory.wfFrom (a + 1) m

/-- The canonical form: equal memories are equal lists. -/
def Memory.wf (m : Memory) : Bool := Memory.wfFrom 0 m

/-- The byte listed for an address, if there is one. -/
def Memory.lookup : Memory → Nat → Option Byte
  | [], _ => none
  | (k, b) :: m, a => if k = a then some b else Memory.lookup m a

/-- The byte at an address. -/
def Memory.read (m : Memory) (a : Nat) : Byte := (Memory.lookup m a).getD (Memory.unlisted a)

/-- List a byte at its place by address, in place of any byte listed there. -/
def Memory.insert (a : Nat) (b : Byte) : Memory → Memory
  | [] => [(a, b)]
  | (k, c) :: m =>
    if a < k then (a, b) :: (k, c) :: m
    else if a = k then (a, b) :: m
    else (k, c) :: Memory.insert a b m

/-- Take an address off the list. -/
def Memory.erase (a : Nat) : Memory → Memory
  | [] => []
  | (k, c) :: m => if k = a then Memory.erase a m else (k, c) :: Memory.erase a m

/-- Write a byte at an address, keeping the canonical form. -/
def Memory.write (m : Memory) (a : Nat) (b : Byte) : Memory :=
  if b = Memory.unlisted a then Memory.erase a m else Memory.insert a b m

/-! ### Data accesses (20_memory.md R51, R56) -/

/-- `MemRead(addr, 1)` of R51: the address is reduced modulo 4096. -/
def State.memRead (s : State) (addr : Nat) : Byte := s.mem.read (addr % Config.memSize)

/-- `MemWrite(addr, 1, b)` of R51: the address is reduced modulo 4096. -/
def State.memWrite (s : State) (addr : Nat) (b : Byte) : State :=
  { s with mem := s.mem.write (addr % Config.memSize) b }

/-- One-byte writes at increasing addresses from `addr`, each reduced modulo 4096 (R56). -/
def State.storeBytes (s : State) (addr : Nat) : List Byte → State
  | [] => s
  | b :: bs => (s.memWrite addr b).storeBytes (addr + 1) bs

/-- One-byte reads at the `count` increasing addresses from `addr`, each reduced modulo 4096 (R56). -/
def State.loadBytes (s : State) (addr count : Nat) : List Byte :=
  (List.range count).map (fun r => s.memRead (addr + r))

/-! ### Registers (10_state.md R21 to R28) -/

/-- `V[x]` (00_scope.md R7). -/
def State.readV (s : State) (x : Nibble) : Byte := s.v[x.toNat]'x.isLt

/-- `V[x] <- b` (R7). No register is hard-wired (R21). -/
def State.writeV (s : State) (x : Nibble) (b : Byte) : State :=
  { s with v := s.v.set x.toNat b x.isLt }

/-- `I <- w` (R7). -/
def State.setI (s : State) (w : Word) : State := { s with i := w }

/-- `DT <- b` (R7). -/
def State.setDt (s : State) (b : Byte) : State := { s with dt := b }

/-- `ST <- b` (R7). -/
def State.setSt (s : State) (b : Byte) : State := { s with st := b }

/-- Registers V0 to Vx take the given bytes, all read before any write (41_index_memory.md R125, 30_encoding.md R85). -/
def State.writeRange (s : State) (x : Nibble) (bytes : List Byte) : State :=
  { s with v := Vector.ofFn (fun r => if r.val ≤ x.toNat then bytes.getD r.val 0x00#8 else s.v[r]) }

/-- The bytes of V0 to Vx in register order (R124). -/
def State.readRange (s : State) (x : Nibble) : List Byte :=
  (List.range (x.toNat + 1)).map (fun r => s.readV (BitVec.ofNat 4 r))

/-! ### The program counter (10_state.md R24) -/

/-- `pc <- target` (R7): nothing checks the target (43_control_flow.md R160). -/
def State.jump (s : State) (target : Word) : State := { s with pc := target }

/-- Advance (30_encoding.md R81): past the fetched opcode, before dispatch. -/
def State.advance (s : State) : State := s.jump (s.pc + 2#16)

/-- `skip()` (43_control_flow.md R160): past the next opcode as well, if the condition holds. -/
def State.skipIf (s : State) (taken : Bool) : State := if taken then s.jump (s.pc + 2#16) else s

/-- `fetch_pc` as seen during execute, when `pc` holds it plus 2 (R81). It is also where the Fx0A wait rewinds to
(44_timer_input_random.md R184). -/
def State.fetchPc (s : State) : Word := s.pc - 2#16

/-! ### The stack (10_state.md R25, R26) -/

/-- Push a word on the next free slot, if there is one. -/
def State.push (s : State) (w : Word) : Option State :=
  if h : s.sp.val < 16 then
    some { s with stack := s.stack.set s.sp.val w h, sp := ⟨s.sp.val + 1, Nat.succ_lt_succ h⟩ }
  else none

/-- Pop the word of the last live slot, if there is one; the slot keeps its value (R26). -/
def State.pop (s : State) : Option (Word × State) :=
  if h : 0 < s.sp.val then
    some (s.stack[s.sp.val - 1]'(by omega), { s with sp := ⟨s.sp.val - 1, by omega⟩ })
  else none

/-! ### The framebuffer and the keypad (10_state.md R30, R31) -/

/-- The cell of column x and row y, coordinates reduced as 42_draw_sprite.md R141 says. -/
def Framebuffer.cell (fb : Framebuffer) (x y : Nat) : Bool :=
  (fb[y % 32]'(Nat.mod_lt y (by decide)))[x % 64]'(Nat.mod_lt x (by decide))

/-- `FB[y][x] <- FB[y][x] ^ 1`, coordinates reduced as R141 says. -/
def Framebuffer.toggle (fb : Framebuffer) (x y : Nat) : Framebuffer :=
  fb.set (y % 32)
    ((fb[y % 32]'(Nat.mod_lt y (by decide))).set (x % 64) (!Framebuffer.cell fb x y) (Nat.mod_lt x (by decide)))
    (Nat.mod_lt y (by decide))

/-- Every cell off (42_draw_sprite.md R140). -/
def Framebuffer.clear : Framebuffer := Vector.replicate 32 (Vector.replicate 64 false)

/-- The framebuffer is replaced as a whole. -/
def State.setFb (s : State) (fb : Framebuffer) : State := { s with fb := fb }

/-- `key[k]` (R7). -/
def State.keyDown (s : State) (k : Nibble) : Bool := s.key[k.toNat]'k.isLt

/-! ### The random draw (00_scope.md R4) -/

/-- The random byte of the next draw: a free value. Log entry 2. -/
def State.rndByte (s : State) : Byte := Config.rnd s.draws

/-- The same state with the draw counter at `d`. -/
def State.withDraws (s : State) (d : Nat) : State := { s with draws := d }

/-- The draw is used up: the next one is a fresh one (10_state.md R34, 44_timer_input_random.md R180). -/
def State.nextDraw (s : State) : State := s.withDraws (s.draws + 1)

/-! ### Errors (00_scope.md R8, 60_exceptions.md R208) -/

/-- `raise E(info)`: the operation ends with the error. The core has no trap, vector or saved state (R208, R209); nothing
is committed, since the outcome holds no state. Log entry 7. -/
def raise (f : Fault) : Host.Outcome State Fault Refusal := .fault f

/-- The result code of an error (R200); a completed operation has code 0. -/
def Fault.code : Fault → Nat
  | .outOfBoundsFetch _ => 1
  | .unknownOpcode _ _ => 2
  | .stackOverflow _ _ => 3
  | .stackUnderflow _ _ => 4
  | .invalidKeyIndex _ _ _ => 5
  | .programTooLarge _ => 6

/-! ### Fetch and decode (20_memory.md R52, 30_encoding.md R75) -/

/-- The opcode at `pc`: the byte at the lower address is the high byte (R52, R53). -/
def State.opcodeAtPc (s : State) : Word :=
  wordOfBytes (s.mem.read s.pc.toNat) (s.mem.read (s.pc.toNat + 1))

/-- `Fetch()` of R52: the bound is checked on exact integers, and the address is not reduced. -/
def State.fetch (s : State) : Except Fault Word :=
  if 0xFFF < s.pc.toNat + 1 then .error (.outOfBoundsFetch s.pc) else .ok s.opcodeAtPc

/-- A word that does not decode is the error `UnknownOpcode(op, fetch_pc)` (60_exceptions.md R202). -/
def decodeAt (op fetchPc : Word) : Except Fault Instr :=
  match decodeWord op with
  | .ok i => .ok i
  | .error _ => .error (.unknownOpcode op fetchPc)

/-- The opcode `w` stored at `pc`, where the next fetch finds it; a `pc` no fetch accepts leaves the state alone (R52). -/
def State.storeOpcodeAtPc (s : State) (w : Word) : State :=
  if 0xFFF < s.pc.toNat + 1 then s else s.storeBytes s.pc.toNat [highByte w, lowByte w]

end Sys2Proof.Machine
end

