-- ==== Sys2Proof/Machine/Flags.lean ====
section
/-! DEFINITION. The values written to VF as a flag (10_state.md R22) and the order of the two writes (30_encoding.md R85).
There is no other flag in the core. -/

namespace Sys2Proof.Machine

/-- A flag is written as the byte 0 or 1 (R22). -/
def flagByte (set : Bool) : Byte := if set then 0x01#8 else 0x00#8

/-- The carry of 8xy4: the exact 9-bit sum exceeds 255 (40_arith_logic.md R106). -/
def carryOut (a b : Byte) : Bool := decide (255 < a.toNat + b.toNat)

/-- The flag of 8xy5 and 8xy7: the minuend is strictly greater (R107, R109, 90_conflicts.md C13). -/
def strictlyGreater (minuend subtrahend : Byte) : Bool := decide (subtrahend.toNat < minuend.toNat)

/-- The flag of 8xy6: the bit shifted out on the right (R108). -/
def lowBit (a : Byte) : Bool := a.getLsbD 0

/-- The flag of 8xyE: the bit shifted out on the left (R110). -/
def highBit (a : Byte) : Bool := a.getLsbD 7

/-- VF is written first and Vx second, so with x = 0xF the result stays (R85). -/
def State.writeFlagThenResult (s : State) (x : Nibble) (flag : Bool) (result : Byte) : State :=
  (s.writeV 0xF#4 (flagByte flag)).writeV x result

end Sys2Proof.Machine
end

