-- ==== Sys2Proof/Machine/Operands.lean ====
section
/-! DEFINITION. The operand forms of 30_encoding.md R72: how a field, a register or an address becomes a value. -/

namespace Sys2Proof.Machine

/-- `zext_16(nnn)`: an address field as PC or I takes it (R72). -/
def addrWord (nnn : Addr) : Word := nnn.setWidth 16

/-- The effective address `I + offset` as an exact integer; each access reduces it (41_index_memory.md, 20_memory.md R51). -/
def State.atI (s : State) (offset : Nat) : Nat := s.i.toNat + offset

/-- `(I + V[x]) mod 4096` (41_index_memory.md R121). -/
def State.indexPlus (s : State) (x : Nibble) : Word :=
  BitVec.ofNat 16 ((s.i.toNat + (s.readV x).toNat) % Config.memSize)

/-- `0x050 + 5 * V[x]`, exact and unmasked (41_index_memory.md R122). -/
def State.glyphAddress (s : State) (x : Nibble) : Word :=
  BitVec.ofNat 16 (Config.fontBase + 5 * (s.readV x).toNat)

/-- `nnn + V[0]`, exact in 16 bits and not reduced modulo 4096 (43_control_flow.md R168). -/
def State.indexedTarget (s : State) (nnn : Addr) : Word :=
  addrWord nnn + (s.readV 0x0#4).setWidth 16

/-- The three decimal digits of a byte, hundreds first (41_index_memory.md R123). -/
def decimalDigits (d : Byte) : List Byte :=
  [BitVec.ofNat 8 (d.toNat / 100), BitVec.ofNat 8 (d.toNat / 10 % 10), BitVec.ofNat 8 (d.toNat % 10)]

/-- The keypad cell that `V[x]` names, if it is at most 0xF (44_timer_input_random.md R181, 60_exceptions.md R205). -/
def State.keyIndex (s : State) (x : Nibble) : Option Nibble :=
  if 0xF < (s.readV x).toNat then none else some ((s.readV x).setWidth 4)

/-- The 16 key numbers, lowest first. -/
def keyNumbers : List Nibble := (List.range 16).map (BitVec.ofNat 4)

/-- The lowest key that is down, if any is (44_timer_input_random.md R184). -/
def State.lowestKeyDown (s : State) : Option Nibble := keyNumbers.find? s.keyDown

/-- The sprite's rows, `n` bytes from I (42_draw_sprite.md R141). -/
def State.spriteRows (s : State) (n : Nibble) : List Byte := s.loadBytes (s.atI 0) n.toNat

/-- The bit of a sprite row for column offset `c`: bit `7 - c`, so the most significant bit is leftmost (R141). -/
def spriteBit (row : Byte) (c : Nat) : Bool := row.getLsbD (7 - c)

end Sys2Proof.Machine
end

