-- ==== Sys2Proof/Machine/Arith.lean ====
section
/-! DEFINITION. The arithmetic and logic instructions of 40_arith_logic.md. Operands are read before any write
(30_encoding.md R85), and none of these writes `pc`. -/

namespace Sys2Proof.Machine

/-- R100: `V[x] <- kk`. -/
def execLdImm (x : Nibble) (kk : Byte) (s : State) : Host.Outcome State Fault Refusal :=
  .next (s.writeV x kk)

/-- R101: `V[x] <- (V[x] + kk) mod 256`, with no flag. -/
def execAddImm (x : Nibble) (kk : Byte) (s : State) : Host.Outcome State Fault Refusal :=
  .next (s.writeV x (s.readV x + kk))

/-- R102: `V[x] <- V[y]`. -/
def execLdReg (x y : Nibble) (s : State) : Host.Outcome State Fault Refusal :=
  .next (s.writeV x (s.readV y))

/-- R103: `V[x] <- V[x] | V[y]`; VF is no flag here. -/
def execOrReg (x y : Nibble) (s : State) : Host.Outcome State Fault Refusal :=
  .next (s.writeV x (s.readV x ||| s.readV y))

/-- R104: `V[x] <- V[x] & V[y]`; VF is no flag here. -/
def execAndReg (x y : Nibble) (s : State) : Host.Outcome State Fault Refusal :=
  .next (s.writeV x (s.readV x &&& s.readV y))

/-- R105: `V[x] <- V[x] ^ V[y]`; VF is no flag here. -/
def execXorReg (x y : Nibble) (s : State) : Host.Outcome State Fault Refusal :=
  .next (s.writeV x (s.readV x ^^^ s.readV y))

/-- R106: VF is the carry of the exact sum, then `V[x] <- sum mod 256`. -/
def execAddReg (x y : Nibble) (s : State) : Host.Outcome State Fault Refusal :=
  .next (s.writeFlagThenResult x (carryOut (s.readV x) (s.readV y)) (s.readV x + s.readV y))

/-- R107: VF is `V[x] > V[y]`, then `V[x] <- (V[x] - V[y]) mod 256`. -/
def execSub (x y : Nibble) (s : State) : Host.Outcome State Fault Refusal :=
  .next (s.writeFlagThenResult x (strictlyGreater (s.readV x) (s.readV y)) (s.readV x - s.readV y))

/-- R108: VF is bit 0 of `V[x]`, then `V[x] <- V[x] >> 1`; y is ignored (R87). -/
def execShr (x _y : Nibble) (s : State) : Host.Outcome State Fault Refusal :=
  .next (s.writeFlagThenResult x (lowBit (s.readV x)) (s.readV x >>> 1))

/-- R109: VF is `V[y] > V[x]`, then `V[x] <- (V[y] - V[x]) mod 256`. -/
def execSubn (x y : Nibble) (s : State) : Host.Outcome State Fault Refusal :=
  .next (s.writeFlagThenResult x (strictlyGreater (s.readV y) (s.readV x)) (s.readV y - s.readV x))

/-- R110: VF is bit 7 of `V[x]`, then `V[x] <- (V[x] << 1) mod 256`; y is ignored (R87). -/
def execShl (x _y : Nibble) (s : State) : Host.Outcome State Fault Refusal :=
  .next (s.writeFlagThenResult x (highBit (s.readV x)) (s.readV x <<< 1))

end Sys2Proof.Machine
end

