-- ==== Sys2Proof/Machine/ControlFlow.lean ====
section
/-! DEFINITION. The control-flow instructions of 43_control_flow.md. When a meaning starts, `pc` holds the fetch address
plus 2 (30_encoding.md R81). -/

namespace Sys2Proof.Machine

/-- R161: pop into `pc`, or `StackUnderflow` when SP = 0. -/
def execRet (s : State) : Host.Outcome State Fault Refusal :=
  match s.pop with
  | none => raise (.stackUnderflow s.fetchPc (encode .ret))
  | some (target, t) => .next (t.jump target)

/-- R162: `pc <- zext_16(nnn)`. -/
def execJp (nnn : Addr) (s : State) : Host.Outcome State Fault Refusal :=
  .next (s.jump (addrWord nnn))

/-- R163: push the return address and jump, or `StackOverflow` when SP = 16. -/
def execCall (nnn : Addr) (s : State) : Host.Outcome State Fault Refusal :=
  match s.push s.pc with
  | none => raise (.stackOverflow s.fetchPc (encode (.call nnn)))
  | some t => .next (t.jump (addrWord nnn))

/-- R164: skip if `V[x] = kk`. -/
def execSeImm (x : Nibble) (kk : Byte) (s : State) : Host.Outcome State Fault Refusal :=
  .next (s.skipIf (s.readV x == kk))

/-- R165: skip if `V[x] != kk`. -/
def execSneImm (x : Nibble) (kk : Byte) (s : State) : Host.Outcome State Fault Refusal :=
  .next (s.skipIf (s.readV x != kk))

/-- R166: skip if `V[x] = V[y]`. -/
def execSeReg (x y : Nibble) (s : State) : Host.Outcome State Fault Refusal :=
  .next (s.skipIf (s.readV x == s.readV y))

/-- R167: skip if `V[x] != V[y]`. -/
def execSneReg (x y : Nibble) (s : State) : Host.Outcome State Fault Refusal :=
  .next (s.skipIf (s.readV x != s.readV y))

/-- R168: `pc <- nnn + V[0]`. -/
def execJpV0 (nnn : Addr) (s : State) : Host.Outcome State Fault Refusal :=
  .next (s.jump (s.indexedTarget nnn))

end Sys2Proof.Machine
end

