-- ==== Sys2Proof/Machine/Display.lean ====
section
/-! DEFINITION. The display instructions of 42_draw_sprite.md. Neither writes `pc`. -/

namespace Sys2Proof.Machine

/-- One pixel of R142's inner loop: row `r`, column offset `c`; the pair is the framebuffer and the collision so far. -/
def drawPixel (x0 y0 r : Nat) (row : Byte) (acc : Framebuffer × Bool) (c : Nat) : Framebuffer × Bool :=
  if spriteBit row c then
    (acc.1.toggle (x0 + c) (y0 + r), acc.2 || acc.1.cell (x0 + c) (y0 + r))
  else acc

/-- The eight columns of one row, left to right (R142). -/
def drawRow (x0 y0 r : Nat) (row : Byte) (acc : Framebuffer × Bool) : Framebuffer × Bool :=
  (List.range 8).foldl (drawPixel x0 y0 r row) acc

/-- The rows from row `r` on, top to bottom (R142). -/
def drawRows (x0 y0 : Nat) : Nat → List Byte → Framebuffer × Bool → Framebuffer × Bool
  | _, [], acc => acc
  | r, row :: rows, acc => drawRows x0 y0 (r + 1) rows (drawRow x0 y0 r row acc)

/-- What Dxyn makes of the framebuffer, and whether a cell that was on was turned off; the origin is
`(V[x] mod 64, V[y] mod 32)` (R141, R142). -/
def State.sprite (s : State) (x y n : Nibble) : Framebuffer × Bool :=
  drawRows ((s.readV x).toNat % 64) ((s.readV y).toNat % 32) 0 (s.spriteRows n) (s.fb, false)

/-- R140: every cell off. -/
def execCls (s : State) : Host.Outcome State Fault Refusal :=
  .next (s.setFb Framebuffer.clear)

/-- R142: the sprite is drawn with XOR, and VF is written last, with the collision. -/
def execDrw (x y n : Nibble) (s : State) : Host.Outcome State Fault Refusal :=
  .next ((s.setFb (s.sprite x y n).1).writeV 0xF#4 (flagByte (s.sprite x y n).2))

end Sys2Proof.Machine
end

