-- ==== Sys2Proof/Machine/IndexMemory.lean ====
section
/-! DEFINITION. The index register and memory instructions of 41_index_memory.md. None writes `pc`, and no access
changes I. -/

namespace Sys2Proof.Machine

/-- R120: `I <- zext_16(nnn)`. -/
def execLdI (nnn : Addr) (s : State) : Host.Outcome State Fault Refusal :=
  .next (s.setI (addrWord nnn))

/-- R121: `I <- (I + V[x]) mod 4096`, with no flag. -/
def execAddI (x : Nibble) (s : State) : Host.Outcome State Fault Refusal :=
  .next (s.setI (s.indexPlus x))

/-- R122: `I <- 0x050 + 5 * V[x]`. -/
def execLdF (x : Nibble) (s : State) : Host.Outcome State Fault Refusal :=
  .next (s.setI (s.glyphAddress x))

/-- R123: the decimal digits of `V[x]` at I, I + 1 and I + 2, hundreds first. -/
def execLdB (x : Nibble) (s : State) : Host.Outcome State Fault Refusal :=
  .next (s.storeBytes (s.atI 0) (decimalDigits (s.readV x)))

/-- R124: V0 to Vx at increasing addresses from I. -/
def execLdMemVx (x : Nibble) (s : State) : Host.Outcome State Fault Refusal :=
  .next (s.storeBytes (s.atI 0) (s.readRange x))

/-- R125: V0 to Vx from increasing addresses from I. -/
def execLdVxMem (x : Nibble) (s : State) : Host.Outcome State Fault Refusal :=
  .next (s.writeRange x (s.loadBytes (s.atI 0) (x.toNat + 1)))

end Sys2Proof.Machine
end

