-- ==== Sys2Proof/Machine/TimerInputRandom.lean ====
section
/-! DEFINITION. The timer, input and random instructions of 44_timer_input_random.md. -/

namespace Sys2Proof.Machine

/-- R180: `V[x] <- rnd & kk`, using up one draw. Log entry 2. -/
def execRnd (x : Nibble) (kk : Byte) (s : State) : Host.Outcome State Fault Refusal :=
  .next (s.nextDraw.writeV x (s.rndByte &&& kk))

/-- R181: skip if key `V[x]` is down, or `InvalidKeyIndex` when `V[x] > 0xF`. -/
def execSkp (x : Nibble) (s : State) : Host.Outcome State Fault Refusal :=
  match s.keyIndex x with
  | none => raise (.invalidKeyIndex s.fetchPc (encode (.skp x)) (s.readV x))
  | some k => .next (s.skipIf (s.keyDown k))

/-- R182: skip if key `V[x]` is not down, or `InvalidKeyIndex` when `V[x] > 0xF`. -/
def execSknp (x : Nibble) (s : State) : Host.Outcome State Fault Refusal :=
  match s.keyIndex x with
  | none => raise (.invalidKeyIndex s.fetchPc (encode (.sknp x)) (s.readV x))
  | some k => .next (s.skipIf (!s.keyDown k))

/-- R183: `V[x] <- DT`. -/
def execLdVxDt (x : Nibble) (s : State) : Host.Outcome State Fault Refusal :=
  .next (s.writeV x s.dt)

/-- R184: with no key down the step completes with `pc` back at this instruction; else `V[x]` takes the lowest key. -/
def execLdVxK (x : Nibble) (s : State) : Host.Outcome State Fault Refusal :=
  match s.lowestKeyDown with
  | none => .next (s.jump s.fetchPc)
  | some k => .next (s.writeV x (k.setWidth 8))

/-- R185: `DT <- V[x]`. -/
def execLdDtVx (x : Nibble) (s : State) : Host.Outcome State Fault Refusal :=
  .next (s.setDt (s.readV x))

/-- R186: `ST <- V[x]`. -/
def execLdStVx (x : Nibble) (s : State) : Host.Outcome State Fault Refusal :=
  .next (s.setSt (s.readV x))

end Sys2Proof.Machine
end

