-- ==== Sys2Proof/Machine/Step.lean ====
section
/-! DEFINITION. The step of 30_encoding.md R80, and where the host places an opcode for the next step. -/

namespace Sys2Proof.Machine

/-- `Step(rnd)` of R80: fetch, advance, decode, execute; no timer update (R84). The first phase that raises ends the step
(60_exceptions.md R207), and then nothing is committed (00_scope.md R8). `rnd` is `State.rndByte`. -/
def step (s : State) : Host.Outcome State Fault Refusal :=
  match s.fetch with
  | .error f => raise f
  | .ok op =>
    match decodeAt op s.pc with
    | .error f => raise f
    | .ok i => exec i s.advance

/-- The table's word stored where the next step fetches: its high byte at `pc`, its low byte at `pc + 1` (20_memory.md
R53). Nothing else changes. Log entry 3. -/
def State.withFetchWord (s : State) (nbits w : Nat) : State := s.storeOpcodeAtPc (tableWord nbits w)

end Sys2Proof.Machine
end

