-- ==== Sys2Proof/Machine/HostInterface.lean ====
section
/-! DEFINITION. The host interface of 60_exceptions.md R214: every operation the embedding host calls, and runs of them in
any order (70_reset_and_hazards.md R243). -/

namespace Sys2Proof.Machine

/-- The FONT parameter of 00_scope.md R4: 80 bytes. -/
abbrev Font := Vector Byte 80

/-- The default FONT of 20_memory.md R55. Log entry 1. -/
def fontDefault : Font := ⟨(fontLow ++ fontHigh).toArray, rfl⟩

/-- `reset()` on a core whose font is `font` (70_reset_and_hazards.md R231): the font's bytes at 0x050, every other element
of R20 at its value of 10_state.md R35, whatever the state was. The draw counter, which is no element of R20, goes on, so
that no draw after a `reset` is one made before it (R34, 44_timer_input_random.md R180). Log entry 2. -/
def resetWith (font : Font) (s : State) : State :=
  (State.reset.withDraws s.draws).storeBytes Config.fontBase font.toList

/-- `load-program(bytes)` (R233): all the bytes from 0x200 and nothing else, or `ProgramTooLarge` with nothing changed. -/
def loadProgram (bytes : List Byte) (s : State) : Host.Outcome State Fault Refusal :=
  if Config.maxProgram < bytes.length then raise (.programTooLarge bytes.length)
  else .next (s.storeBytes Config.programBase bytes)

/-- One timer toward zero, where it stays (60_exceptions.md R212). -/
def countDown (b : Byte) : Byte := if 0 < b.toNat then b - 1#8 else b

/-- `tick()` (R212): each timer once. -/
def tick (s : State) : State := (s.setDt (countDown s.dt)).setSt (countDown s.st)

/-- `set-keypad(k)` (R214): all 16 cells. -/
def setKeypad (k : Keypad) (s : State) : State := { s with key := k }

/-- `read-framebuffer()` (R214): the 2048 cells flat, row by row, so that cell (x, y) has index `y * 64 + x`
(10_state.md R30). -/
def readFramebuffer (s : State) : List Bool := (s.fb.toList.map (fun row => row.toList)).flatten

/-- `read-timers()` (R214): DT and ST. -/
def readTimers (s : State) : Byte × Byte := (s.dt, s.st)

/-- An operation of the host interface (R214). -/
inductive HostOp where
  | reset
  | loadProgram (bytes : List Byte)
  | step
  | tick
  | setKeypad (k : Keypad)
  | readFramebuffer
  | readTimers
deriving DecidableEq, Repr

/-- What one operation does to the state of a core whose font is `font`. -/
def HostOp.apply (font : Font) (op : HostOp) (s : State) : Host.Outcome State Fault Refusal :=
  match op with
  | .reset => .next (resetWith font s)
  | .loadProgram bytes => Sys2Proof.Machine.loadProgram bytes s
  | .step => Sys2Proof.Machine.step s
  | .tick => .next (Sys2Proof.Machine.tick s)
  | .setKeypad k => .next (Sys2Proof.Machine.setKeypad k s)
  | .readFramebuffer => .next s
  | .readTimers => .next s

/-- The result of an operation (00_scope.md R9): `Ok`, or `Err` with its kind and information. -/
inductive Result where
  | ok
  | err (f : Fault)
  /-- Never returned: no instruction is refused. -/
  | refused (r : Refusal)
deriving DecidableEq, Repr

/-- The result code of 60_exceptions.md R200; a refusal has none. -/
def Result.code : Result → Option Nat
  | .ok => some 0
  | .err f => some f.code
  | .refused _ => none

/-- The state after an operation and its result: after an error the state is the one before it (00_scope.md R8). -/
def HostOp.perform (font : Font) (op : HostOp) (s : State) : State × Result :=
  match op.apply font s with
  | .next t => (t, .ok)
  | .fault f => (s, .err f)
  | .refused r => (s, .refused r)

/-- Operations one after another, each on the state the previous one left (R243); an error does not end the run, since
what follows it is the caller's decision (60_exceptions.md R208). -/
def performAll (font : Font) : List HostOp → State → State
  | [], s => s
  | op :: ops, s => performAll font ops (op.perform font s).1

end Sys2Proof.Machine
end

