-- ==== Sys2Proof/Safety.lean ====
section
/-! DEFINITION. The terms claims are stated in: the invariant of 10_state.md R36, what an operation leaves unchanged, what
each instruction may write, and a run without errors. -/

namespace Sys2Proof.Machine

/-- The invariant of R36, with the canonical form of memory: (a) I is at most 0xFFF; (b) SP is 0 to 16; (c) every live
stack slot is at most 0x1000; (d) pc is at most 0x10FE. -/
structure State.Inv (s : State) : Prop where
  index : s.i.toNat ≤ 0xFFF
  depth : s.sp.val ≤ 16
  slots : ∀ j : Fin 16, j.val < s.sp.val → s.stack[j].toNat ≤ 0x1000
  counter : s.pc.toNat ≤ 0x10FE
  memory : s.mem.wf = true

/-- One piece of the state of R20 (a register, a stack slot, a byte of memory, a cell of the screen, a key), and the
model's own draw counter. -/
inductive Part where
  | v (x : Nibble)
  | i
  | pc
  | sp
  | slot (j : Fin 16)
  | dt
  | st
  | byte (a : Addr)
  | cell (x : Fin 64) (y : Fin 32)
  | key (k : Nibble)
  | draws
deriving DecidableEq, Repr

/-- The two states hold the same in this piece. -/
def Part.same (p : Part) (s t : State) : Prop :=
  match p with
  | .v x => t.readV x = s.readV x
  | .i => t.i = s.i
  | .pc => t.pc = s.pc
  | .sp => t.sp = s.sp
  | .slot j => t.stack[j] = s.stack[j]
  | .dt => t.dt = s.dt
  | .st => t.st = s.st
  | .byte a => t.memRead a.toNat = s.memRead a.toNat
  | .cell x y => t.fb.cell x.val y.val = s.fb.cell x.val y.val
  | .key k => t.keyDown k = s.keyDown k
  | .draws => t.draws = s.draws

/-- Every piece of the state is unchanged, but perhaps those allowed. -/
def ChangesOnly (allowed : Part → Prop) (s t : State) : Prop :=
  ∀ p : Part, ¬ allowed p → p.same s t

/-- The byte `p` is one of the `count` bytes stored from `addr` on, each address reduced modulo 4096 (20_memory.md R51). -/
def storedAt (addr count : Nat) (p : Part) : Prop :=
  ∃ a : Addr, p = .byte a ∧ ∃ r, r < count ∧ (addr + r) % 4096 = a.toNat

/-- What an instruction may write when it runs in the state `s` (after the advance): the writers listed by 10_state.md R21
to R31 and the rules of files 40 to 44. Everything else it leaves alone. -/
def writes (i : Instr) (s : State) (p : Part) : Prop :=
  match i with
  | .cls => ∃ x y, p = .cell x y
  | .ret => p = .sp ∨ p = .pc
  | .jp _ => p = .pc
  | .call _ => p = .sp ∨ p = .pc ∨ ∃ j : Fin 16, j.val = s.sp.val ∧ p = .slot j
  | .seImm _ _ => p = .pc
  | .sneImm _ _ => p = .pc
  | .seReg _ _ => p = .pc
  | .sneReg _ _ => p = .pc
  | .ldImm x _ => p = .v x
  | .addImm x _ => p = .v x
  | .ldReg x _ => p = .v x
  | .orReg x _ => p = .v x
  | .andReg x _ => p = .v x
  | .xorReg x _ => p = .v x
  | .addReg x _ => p = .v x ∨ p = .v 0xF#4
  | .sub x _ => p = .v x ∨ p = .v 0xF#4
  | .shr x _ => p = .v x ∨ p = .v 0xF#4
  | .subn x _ => p = .v x ∨ p = .v 0xF#4
  | .shl x _ => p = .v x ∨ p = .v 0xF#4
  | .ldI _ => p = .i
  | .jpV0 _ => p = .pc
  | .rnd x _ => p = .v x ∨ p = .draws
  | .drw _ _ _ => p = .v 0xF#4 ∨ ∃ x y, p = .cell x y
  | .skp _ => p = .pc
  | .sknp _ => p = .pc
  | .ldVxDt x => p = .v x
  | .ldVxK x => p = .v x ∨ p = .pc
  | .ldDtVx _ => p = .dt
  | .ldStVx _ => p = .st
  | .addI _ => p = .i
  | .ldF _ => p = .i
  | .ldB _ => storedAt (s.atI 0) 3 p
  | .ldMemVx x => storedAt (s.atI 0) (x.toNat + 1) p
  | .ldVxMem x => ∃ r : Nibble, r.toNat ≤ x.toNat ∧ p = .v r

/-! ### Words written from the match column and the field positions of 30_encoding.md R71 and R73, apart from `encode` -/

/-- Format A: nnn in bits 11 to 0. -/
def wordA (matchBits : Word) (nnn : Addr) : Word := matchBits ||| nnn.setWidth 16

/-- Format X: x in bits 11 to 8. -/
def wordX (matchBits : Word) (x : Nibble) : Word := matchBits ||| (x.setWidth 16 <<< 8)

/-- Format XK: x in bits 11 to 8, kk in bits 7 to 0. -/
def wordXK (matchBits : Word) (x : Nibble) (kk : Byte) : Word := wordX matchBits x ||| kk.setWidth 16

/-- Format XY: x in bits 11 to 8, y in bits 7 to 4. -/
def wordXY (matchBits : Word) (x y : Nibble) : Word := wordX matchBits x ||| (y.setWidth 16 <<< 4)

/-- Format XYN: x in bits 11 to 8, y in bits 7 to 4, n in bits 3 to 0. -/
def wordXYN (matchBits : Word) (x y n : Nibble) : Word := wordXY matchBits x y ||| n.setWidth 16

/-- The instruction's word is `w`, and `w` decodes to it. -/
def EncodedAs (i : Instr) (w : Word) : Prop := encode i = w ∧ decodeWord w = .ok i

/-- The word is no instruction. -/
def UndefinedWord (w : Word) : Prop := decodeWord w = .error (.unknownOpcode w)

/-- `tick()` called `n` times (60_exceptions.md R212). -/
def ticks : Nat → State → State
  | 0, s => s
  | n + 1, s => ticks n (tick s)

/-- A run of host operations in which every one returns `Ok`: what a claim about a program takes as a premise
(60_exceptions.md R208). -/
def runsWithoutError (font : Font) : List HostOp → State → Prop
  | [], _ => True
  | op :: ops, s => (op.perform font s).2 = .ok ∧ runsWithoutError font ops (op.perform font s).1

/-- A state some host schedule reaches from a `reset` (70_reset_and_hazards.md R243, 10_state.md R36). The state before
that `reset` may be any (R230): all that is left of it is the number of the first draw, so that nothing says that two runs
draw the same bytes (91_not_in_source.md N22). -/
def Reachable (font : Font) (s : State) : Prop :=
  ∃ (before : State) (ops : List HostOp), s = performAll font ops (resetWith font before)

end Sys2Proof.Machine
end

