-- ==== Sys2Proof/Certificates/Slice0/Obligations.lean ====
section
/-! DEFINITION. The statements for the provers. Each docstring names the sentence of the spec it formalises; where a clause
rests on the spec's own decision D<n> or on an inference it marks as its own, the docstring says so. -/

open Sys2Proof Sys2Proof.Machine

/-! ### Encoding -/

/-- Words written out bit by bit from the encodings of 30_encoding.md R73 and R74, at least one of each family. -/
def Obligations.WrittenOutWordsDecode : Prop :=
  decodeWord 0b0000000011100000#16 = .ok .cls ∧
  decodeWord 0b0000000011101110#16 = .ok .ret ∧
  decodeWord 0b0001001000110100#16 = .ok (.jp 0x234) ∧
  decodeWord 0b0010001000010000#16 = .ok (.call 0x210) ∧
  decodeWord 0b0011101011110101#16 = .ok (.seImm 0xA 0xF5) ∧
  decodeWord 0b0100000100000101#16 = .ok (.sneImm 0x1 0x05) ∧
  decodeWord 0b0101000100100000#16 = .ok (.seReg 0x1 0x2) ∧
  decodeWord 0b0110101000000101#16 = .ok (.ldImm 0xA 0x05) ∧
  decodeWord 0b0111101000010000#16 = .ok (.addImm 0xA 0x10) ∧
  decodeWord 0b1000101010110100#16 = .ok (.addReg 0xA 0xB) ∧
  decodeWord 0b1000000111111110#16 = .ok (.shl 0x1 0xF) ∧
  decodeWord 0b1001000100100000#16 = .ok (.sneReg 0x1 0x2) ∧
  decodeWord 0b1010001100000000#16 = .ok (.ldI 0x300) ∧
  decodeWord 0b1011111111111111#16 = .ok (.jpV0 0xFFF) ∧
  decodeWord 0b1100001100001111#16 = .ok (.rnd 0x3 0x0F) ∧
  decodeWord 0b1101000000010101#16 = .ok (.drw 0x0 0x1 0x5) ∧
  decodeWord 0b1110010110011110#16 = .ok (.skp 0x5) ∧
  decodeWord 0b1110010110100001#16 = .ok (.sknp 0x5) ∧
  decodeWord 0b1111001100001010#16 = .ok (.ldVxK 0x3) ∧
  decodeWord 0b1111001001100101#16 = .ok (.ldVxMem 0x2)

/-- Every instruction, with every operand at every value, decodes from its own word, and from its two bytes (high byte
first, the spec's decision D1) with the bytes after them left over. -/
def Obligations.DecodeOfEncodeIsTheInstruction : Prop :=
  ∀ (i : Instr) (rest : List Byte),
    decodeWord (encode i) = .ok i ∧ decode (encodeBytes i ++ rest) = .ok (i, rest)

/-- Each defined word has one meaning and no bit of it is dropped: encoding what it decodes to gives the word back. -/
def Obligations.EncodeOfDecodeIsTheWord : Prop :=
  ∀ (w : Word) (i : Instr), decodeWord w = .ok i → encode i = w

/-- The undefined opcodes are exactly the words 30_encoding.md R76 lists (the spec's decision D23), and each is refused
under the name `UnknownOpcode`. -/
def Obligations.UndefinedWordsAreExactlyTheListed : Prop :=
  ∀ w : Word, UndefinedWord w ↔
    ((w.toNat / 4096 = 0x0 ∧ w ≠ 0x00E0#16 ∧ w ≠ 0x00EE#16) ∨
     (w.toNat / 4096 = 0x5 ∧ w.toNat % 16 ≠ 0) ∨
     (w.toNat / 4096 = 0x9 ∧ w.toNat % 16 ≠ 0) ∨
     (w.toNat / 4096 = 0x8 ∧ w.toNat % 16 ∈ [0x8, 0x9, 0xA, 0xB, 0xC, 0xD, 0xF]) ∨
     (w.toNat / 4096 = 0xE ∧ w.toNat % 256 ∉ [0x9E, 0xA1]) ∨
     (w.toNat / 4096 = 0xF ∧ w.toNat % 256 ∉ [0x07, 0x0A, 0x15, 0x18, 0x1E, 0x29, 0x33, 0x55, 0x65]))

/-- The decoder agrees with the opcode map of 30_encoding.md R74 written as rows: a word decodes exactly when a row covers
it, and then the only row that does is the one of the decoded instruction's mnemonic. -/
def Obligations.DecoderAgreesWithTheOpcodeMap : Prop :=
  ∀ w : Word,
    ((∃ i, decodeWord w = .ok i) ↔ wellFormedWord w = true) ∧
    (∀ i, decodeWord w = .ok i →
      (opcodeTable.filter (fun r => r.covers w)).map (fun r => r.mnemonic) = [i.mnemonic])

/-! ### The step -/

/-- When the two bytes at `pc`, the first of them the high byte (the spec's decision D1), decode to an instruction, the
step is that instruction on the state with `pc` advanced by 2 (30_encoding.md R80, R81). -/
def Obligations.StepRunsTheDecodedInstruction : Prop :=
  ∀ (s : State) (op : Word) (i : Instr),
    s.pc.toNat < 0xFFF →
    op.toNat = 256 * (s.memRead s.pc.toNat).toNat + (s.memRead (s.pc.toNat + 1)).toNat →
    decodeWord op = .ok i →
    step s = exec i { s with pc := s.pc + 2#16 }

/-- R201: the fetch raises `OutOfBoundsFetch` with `pc` recorded exactly when `pc + 1 > 0xFFF`, whatever memory holds. -/
def Obligations.FetchPastTheEndIsOutOfBounds : Prop :=
  ∀ s : State,
    (0xFFF < s.pc.toNat + 1 → step s = .fault (.outOfBoundsFetch s.pc)) ∧
    (s.pc.toNat + 1 ≤ 0xFFF → ∀ p, step s ≠ .fault (.outOfBoundsFetch p))

/-- Every error of a step, with its condition and the information it records, is a row of 60_exceptions.md R200, in the
order of R207, and nothing else is: no step is refused. The last row is the spec's decision D14, the records D32. -/
def Obligations.StepErrorsAreExactlyTheTaxonomy : Prop :=
  ∀ s : State,
    (∀ f : Fault, step s = .fault f ↔
      ((0xFFF ≤ s.pc.toNat ∧ f = .outOfBoundsFetch s.pc) ∨
       (s.pc.toNat < 0xFFF ∧ UndefinedWord s.opcodeAtPc ∧ f = .unknownOpcode s.opcodeAtPc s.pc) ∨
       (s.pc.toNat < 0xFFF ∧ (∃ nnn, s.opcodeAtPc = wordA 0x2000#16 nnn) ∧ s.sp.val = 16 ∧
         f = .stackOverflow s.pc s.opcodeAtPc) ∨
       (s.pc.toNat < 0xFFF ∧ s.opcodeAtPc = 0x00EE#16 ∧ s.sp.val = 0 ∧
         f = .stackUnderflow s.pc s.opcodeAtPc) ∨
       (s.pc.toNat < 0xFFF ∧ ∃ x, (s.opcodeAtPc = wordX 0xE09E#16 x ∨ s.opcodeAtPc = wordX 0xE0A1#16 x) ∧
         0xF < (s.readV x).toNat ∧ f = .invalidKeyIndex s.pc s.opcodeAtPc (s.readV x)))) ∧
    (∀ r : Refusal, step s ≠ .refused r)

/-- Each instruction completes on every state but the ones the spec names: 00EE with SP = 0, 2nnn with SP = 16, and Ex9E
and ExA1 with Vx > 0xF (the spec's decision D14). -/
def Obligations.EveryInstructionCompletesElsewhere : Prop :=
  ∀ (i : Instr) (s : State), (∃ t, exec i s = .next t) ↔
    match i with
    | .ret => s.sp.val ≠ 0
    | .call _ => s.sp.val ≠ 16
    | .skp x => (s.readV x).toNat ≤ 0xF
    | .sknp x => (s.readV x).toNat ≤ 0xF
    | _ => True

/-- What each instruction may write, by the writers 10_state.md R21 to R31 list: everything else (every other register,
stack slot, byte of memory, cell, key, timer) is unchanged. The lists rest in part on the decisions D7, D9, D10 and D29. -/
def Obligations.EveryInstructionWritesOnlyItsTargets : Prop :=
  ∀ (i : Instr) (s t : State), exec i s = .next t → ChangesOnly (writes i s) s t

/-- R84: a step changes DT only by executing Fx15 and ST only by executing Fx18; the host's tick does the decrement
(60_exceptions.md R212; that a timer at 0 stays 0 is the spec's reading, decision D17). -/
def Obligations.StepLeavesTheTimersAlone : Prop :=
  (∀ s t : State, step s = .next t →
    (t.dt ≠ s.dt → ∃ x, decodeWord s.opcodeAtPc = .ok (.ldDtVx x)) ∧
    (t.st ≠ s.st → ∃ x, decodeWord s.opcodeAtPc = .ok (.ldStVx x))) ∧
  (∀ s : State, (tick s).dt.toNat = s.dt.toNat - 1 ∧ (tick s).st.toNat = s.st.toNat - 1)

/-- R12: a step is a function of the state and `rnd`. With the draw counter elsewhere, a step of any other instruction
than Cxkk does the same, and one of Cxkk does the same when the draw is the same byte. The counter is the model's own. -/
def Obligations.StepDependsOnTheStateAndTheDrawAlone : Prop :=
  ∀ (s : State) (d : Nat),
    ((∀ x kk, decodeWord s.opcodeAtPc ≠ .ok (.rnd x kk)) →
      (∀ t, step s = .next t → step (s.withDraws d) = .next (t.withDraws d)) ∧
      (∀ f, step s = .fault f → step (s.withDraws d) = .fault f)) ∧
    (Config.rnd d = Config.rnd s.draws →
      (∀ x kk, decodeWord s.opcodeAtPc = .ok (.rnd x kk) →
        ∀ t, step s = .next t → step (s.withDraws d) = .next (t.withDraws (d + 1))))

/-- "A step's error depends only on `pc`, memory, SP and V registers, never on `rnd` or the keypad", an inference that
60_exceptions.md R208 marks as its own. -/
def Obligations.ErrorsDependOnPcMemorySpAndRegisters : Prop :=
  ∀ (s s' : State) (f : Fault),
    s'.pc = s.pc → (∀ a, s'.memRead a = s.memRead a) → s'.sp = s.sp → (∀ x, s'.readV x = s.readV x) →
    step s = .fault f → step s' = .fault f

/-- An operation that returns an error leaves the state exactly as it was (00_scope.md R8, the spec's decision D5), so the
same step returns the same error again (60_exceptions.md R208). -/
def Obligations.AFailedOperationChangesNothing : Prop :=
  ∀ (font : Font) (op : HostOp) (s t : State) (f : Fault),
    op.perform font s = (t, .err f) → t = s ∧ op.perform font t = (t, .err f)

/-! ### The invariant -/

/-- The invariant of 10_state.md R36 (marked by the spec as derived) and the canonical form of memory are kept by every
step that completes, from every state that meets them. -/
def Obligations.StepKeepsTheInvariant : Prop :=
  ∀ s t : State, s.Inv → step s = .next t → t.Inv

/-- The same for every operation of the host interface, completed or not. -/
def Obligations.HostOperationsKeepTheInvariant : Prop :=
  ∀ (font : Font) (op : HostOp) (s : State), s.Inv → (op.perform font s).1.Inv

/-- The invariant holds in the state after reset, and after the host's reset in any state, for every FONT. -/
def Obligations.ResetMeetsTheInvariant : Prop :=
  State.reset.Inv ∧ ∀ (font : Font) (s : State), (resetWith font s).Inv

/-- Whatever the host's schedule, every reachable state meets the invariant, so it has a `pc` of at most 0x10FE and, from
0x0FFF on, its next step raises `OutOfBoundsFetch` (10_state.md R36 (d) and (e), marked by the spec as derived). -/
def Obligations.ReachableStatesStayInBounds : Prop :=
  ∀ (font : Font) (s : State), Reachable font s →
    s.Inv ∧ (0x0FFF ≤ s.pc.toNat → HostOp.step.perform font s = (s, .err (.outOfBoundsFetch s.pc)))

/-! ### Memory -/

/-- Two canonical memories that read alike at every address are the same data (the model's own form of memory, log
entry 9). -/
def Obligations.CanonicalMemoriesThatReadAlikeAreEqual : Prop :=
  ∀ m m' : Memory, m.wf = true → m'.wf = true → (∀ a, a < 4096 → m.read a = m'.read a) → m = m'

/-- A write made by a step is seen by the next fetch (20_memory.md R63, the spec's decision D30): after Fx55, a `pc` that
points at two of the bytes just stored fetches them. -/
def Obligations.AStoredOpcodeIsFetchedNext : Prop :=
  ∀ (x : Nibble) (k : Nat) (s t : State), exec (.ldMemVx x) s = .next t → k + 1 ≤ x.toNat →
    t.pc.toNat = s.atI k → t.pc.toNat < 0xFFF →
    t.fetch = .ok (wordOfBytes (s.readV (BitVec.ofNat 4 k)) (s.readV (BitVec.ofNat 4 (k + 1))))

/-! ### Arithmetic and logic (40_arith_logic.md) -/

/-- R100. -/
def Obligations.LoadImmediateSetsVx : Prop :=
  ∀ (x : Nibble) (kk : Byte), EncodedAs (.ldImm x kk) (wordXK 0x6000#16 x kk) ∧
    ∀ s : State, ∃ t, exec (.ldImm x kk) s = .next t ∧ t.readV x = kk ∧ ChangesOnly (fun p => p = .v x) s t

/-- R101: the sum wraps modulo 256 and no flag is written. -/
def Obligations.AddImmediateWrapsWithoutFlag : Prop :=
  ∀ (x : Nibble) (kk : Byte), EncodedAs (.addImm x kk) (wordXK 0x7000#16 x kk) ∧
    ∀ s : State, ∃ t, exec (.addImm x kk) s = .next t ∧
      (t.readV x).toNat = ((s.readV x).toNat + kk.toNat) % 256 ∧ ChangesOnly (fun p => p = .v x) s t

/-- R102. -/
def Obligations.RegisterCopyTakesVy : Prop :=
  ∀ x y : Nibble, EncodedAs (.ldReg x y) (wordXY 0x8000#16 x y) ∧
    ∀ s : State, ∃ t, exec (.ldReg x y) s = .next t ∧ t.readV x = s.readV y ∧ ChangesOnly (fun p => p = .v x) s t

/-- 8xy1, 8xy2 and 8xy3, bit by bit. That VF is not written as a flag is the spec's decision D7. -/
def Obligations.BitwiseOperationsLeaveVfAlone : Prop :=
  ∀ (x y : Nibble) (s : State),
    (∃ t, exec (.orReg x y) s = .next t ∧ ChangesOnly (fun p => p = .v x) s t ∧
      ∀ k, k < 8 → (t.readV x).getLsbD k = ((s.readV x).getLsbD k || (s.readV y).getLsbD k)) ∧
    (∃ t, exec (.andReg x y) s = .next t ∧ ChangesOnly (fun p => p = .v x) s t ∧
      ∀ k, k < 8 → (t.readV x).getLsbD k = ((s.readV x).getLsbD k && (s.readV y).getLsbD k)) ∧
    (∃ t, exec (.xorReg x y) s = .next t ∧ ChangesOnly (fun p => p = .v x) s t ∧
      ∀ k, k < 8 → (t.readV x).getLsbD k = ((s.readV x).getLsbD k ^^ (s.readV y).getLsbD k))

/-- 8xy4: the exact sum, its low byte in Vx and, when x is not 0xF, its carry in VF. With x = 0xF the result stays in VF
(the order of the writes is the spec's decision D6). -/
def Obligations.AddRegistersSetsTheCarry : Prop :=
  ∀ (x y : Nibble) (s : State), ∃ t, exec (.addReg x y) s = .next t ∧
    (t.readV x).toNat = ((s.readV x).toNat + (s.readV y).toNat) % 256 ∧
    (x ≠ 0xF#4 → t.readV 0xF#4 = if 255 < (s.readV x).toNat + (s.readV y).toNat then 1#8 else 0#8) ∧
    ChangesOnly (fun p => p = .v x ∨ p = .v 0xF#4) s t

/-- 8xy5 and 8xy7: the difference modulo 256 and the strict comparison (90_conflicts.md C13). With x = 0xF the result stays
in VF (the spec's decision D6). -/
def Obligations.SubtractionsSetTheStrictFlag : Prop :=
  ∀ (x y : Nibble) (s : State),
    (∃ t, exec (.sub x y) s = .next t ∧
      (t.readV x).toNat = ((s.readV x).toNat + 256 - (s.readV y).toNat) % 256 ∧
      (x ≠ 0xF#4 → t.readV 0xF#4 = if (s.readV y).toNat < (s.readV x).toNat then 1#8 else 0#8) ∧
      ChangesOnly (fun p => p = .v x ∨ p = .v 0xF#4) s t) ∧
    (∃ t, exec (.subn x y) s = .next t ∧
      (t.readV x).toNat = ((s.readV y).toNat + 256 - (s.readV x).toNat) % 256 ∧
      (x ≠ 0xF#4 → t.readV 0xF#4 = if (s.readV x).toNat < (s.readV y).toNat then 1#8 else 0#8) ∧
      ChangesOnly (fun p => p = .v x ∨ p = .v 0xF#4) s t)

/-- 8xy6 and 8xyE: one place, the bit shifted out in VF; y plays no part (the spec's decision D8). With x = 0xF the result
stays in VF (D6). -/
def Obligations.ShiftsPutTheLostBitInVf : Prop :=
  ∀ (x y : Nibble) (s : State),
    (∃ t, exec (.shr x y) s = .next t ∧
      (t.readV x).toNat = (s.readV x).toNat / 2 ∧
      (x ≠ 0xF#4 → (t.readV 0xF#4).toNat = (s.readV x).toNat % 2) ∧
      ChangesOnly (fun p => p = .v x ∨ p = .v 0xF#4) s t ∧ ∀ y', exec (.shr x y') s = .next t) ∧
    (∃ t, exec (.shl x y) s = .next t ∧
      (t.readV x).toNat = (s.readV x).toNat * 2 % 256 ∧
      (x ≠ 0xF#4 → (t.readV 0xF#4).toNat = (s.readV x).toNat / 128) ∧
      ChangesOnly (fun p => p = .v x ∨ p = .v 0xF#4) s t ∧ ∀ y', exec (.shl x y') s = .next t)

/-! ### Index register and memory (41_index_memory.md) -/

/-- R120: I takes nnn, its bits 15 to 12 becoming 0. -/
def Obligations.LoadIndexSetsI : Prop :=
  ∀ nnn : Addr, EncodedAs (.ldI nnn) (wordA 0xA000#16 nnn) ∧
    ∀ s : State, ∃ t, exec (.ldI nnn) s = .next t ∧ t.i.toNat = nnn.toNat ∧ ChangesOnly (fun p => p = .i) s t

/-- Fx1E: the sum wraps modulo 4096 and VF is not written (the spec's decision D10). -/
def Obligations.AddToIndexWrapsWithoutFlag : Prop :=
  ∀ (x : Nibble) (s : State), ∃ t, exec (.addI x) s = .next t ∧
    t.i.toNat = (s.i.toNat + (s.readV x).toNat) % 4096 ∧ ChangesOnly (fun p => p = .i) s t

/-- Fx29: I points at the glyph of Vx, and Vx above 0xF is not masked (the spec's decision D11). -/
def Obligations.FontIndexPointsAtTheGlyph : Prop :=
  ∀ (x : Nibble) (s : State), ∃ t, exec (.ldF x) s = .next t ∧
    t.i.toNat = 0x050 + 5 * (s.readV x).toNat ∧ ChangesOnly (fun p => p = .i) s t

/-- Fx33: the three decimal digits at I, I + 1 and I + 2, every other byte as before; addresses wrap modulo 4096 (the
spec's decision D2). -/
def Obligations.DecimalStoreWritesTheDigits : Prop :=
  ∀ (x : Nibble) (s : State), ∃ t, exec (.ldB x) s = .next t ∧
    (t.memRead (s.atI 0)).toNat * 100 + (t.memRead (s.atI 1)).toNat * 10 + (t.memRead (s.atI 2)).toNat =
      (s.readV x).toNat ∧
    (t.memRead (s.atI 0)).toNat ≤ 2 ∧ (t.memRead (s.atI 1)).toNat ≤ 9 ∧ (t.memRead (s.atI 2)).toNat ≤ 9 ∧
    ChangesOnly (storedAt (s.atI 0) 3) s t

/-- Fx55: V0 to Vx at I to I + x, every other byte and I itself as before (I unchanged: the spec's decision D9; the wrap
modulo 4096: D2). -/
def Obligations.StoreRegistersWritesV0ToVx : Prop :=
  ∀ (x : Nibble) (s : State), ∃ t, exec (.ldMemVx x) s = .next t ∧
    (∀ r : Nibble, r.toNat ≤ x.toNat → t.memRead (s.atI r.toNat) = s.readV r) ∧
    ChangesOnly (storedAt (s.atI 0) (x.toNat + 1)) s t

/-- Fx65: V0 to Vx from I to I + x, every other register and I as before (decisions D9 and D2). -/
def Obligations.LoadRegistersReadsV0ToVx : Prop :=
  ∀ (x : Nibble) (s : State), ∃ t, exec (.ldVxMem x) s = .next t ∧
    (∀ r : Nibble, r.toNat ≤ x.toNat → t.readV r = s.memRead (s.atI r.toNat)) ∧
    ChangesOnly (fun p => ∃ r : Nibble, r.toNat ≤ x.toNat ∧ p = .v r) s t

/-- Storing V0 to Vx and loading them back gives every register as it was, from whatever the registers held in between
(41_index_memory.md Fx55 and Fx65; decisions D2 and D9). -/
def Obligations.StoreThenLoadRestoresTheRegisters : Prop :=
  ∀ (x : Nibble) (s t u : State), exec (.ldMemVx x) s = .next t → u.i = t.i → u.mem = t.mem →
    ∃ w, exec (.ldVxMem x) u = .next w ∧ ∀ r : Nibble, r.toNat ≤ x.toNat → w.readV r = s.readV r

/-! ### Display (42_draw_sprite.md) -/

/-- R140: every cell off, nothing else touched. -/
def Obligations.ClearTurnsEveryCellOff : Prop :=
  EncodedAs .cls 0x00E0#16 ∧
  ∀ s : State, ∃ t, exec .cls s = .next t ∧
    (∀ (x : Fin 64) (y : Fin 32), t.fb.cell x.val y.val = false) ∧
    ChangesOnly (fun p => ∃ x y, p = .cell x y) s t

/-- Dxyn as 42_draw_sprite.md R141 and R142 say it: bit `7 - c` of the byte at I + r flips the cell of column x0 + c and
row y0 + r, both going round the screen; no other cell changes; VF tells whether a set bit landed on a cell that was on.
The bit order is the spec's decision D12, n = 0 is D13, the coordinate read before VF is written is D6. -/
def Obligations.DrawFlipsTheSpriteAndReportsCollision : Prop :=
  ∀ (x y n : Nibble) (s : State), ∃ t, exec (.drw x y n) s = .next t ∧
    (∀ r c, r < n.toNat → c < 8 →
      t.fb.cell (((s.readV x).toNat % 64 + c) % 64) (((s.readV y).toNat % 32 + r) % 32) =
        (s.fb.cell (((s.readV x).toNat % 64 + c) % 64) (((s.readV y).toNat % 32 + r) % 32) ^^
          (s.memRead (s.atI r)).getLsbD (7 - c))) ∧
    (∀ (px : Fin 64) (py : Fin 32),
      (∀ r c, r < n.toNat → c < 8 →
        px.val ≠ ((s.readV x).toNat + c) % 64 ∨ py.val ≠ ((s.readV y).toNat + r) % 32) →
      t.fb.cell px.val py.val = s.fb.cell px.val py.val) ∧
    ((∃ r c, r < n.toNat ∧ c < 8 ∧ (s.memRead (s.atI r)).getLsbD (7 - c) = true ∧
        s.fb.cell ((s.readV x).toNat + c) ((s.readV y).toNat + r) = true) → t.readV 0xF#4 = 1#8) ∧
    ((∀ r c, r < n.toNat → c < 8 → (s.memRead (s.atI r)).getLsbD (7 - c) = true →
        s.fb.cell ((s.readV x).toNat + c) ((s.readV y).toNat + r) = false) → t.readV 0xF#4 = 0#8) ∧
    ChangesOnly (fun p => p = .v 0xF#4 ∨ ∃ px py, p = .cell px py) s t

/-- Drawing the same sprite twice at the same place restores the screen, and the second draw reports a collision exactly
when some set bit's cell was off before the first. (R142's corner case says only "if the sprite has any set bit": where
all its cells were on before, its pseudocode gives 0, and the model follows the pseudocode, log entry 10.) -/
def Obligations.DrawingTwiceRestoresTheScreen : Prop :=
  ∀ (x y n : Nibble) (s t : State), exec (.drw x y n) s = .next t →
    t.readV x = s.readV x → t.readV y = s.readV y →
    ∃ u, exec (.drw x y n) t = .next u ∧
      (∀ (px : Fin 64) (py : Fin 32), u.fb.cell px.val py.val = s.fb.cell px.val py.val) ∧
      (u.readV 0xF#4 = 1#8 ↔ ∃ r c, r < n.toNat ∧ c < 8 ∧ (s.memRead (s.atI r)).getLsbD (7 - c) = true ∧
        s.fb.cell ((s.readV x).toNat + c) ((s.readV y).toNat + r) = false)

/-! ### Control flow (43_control_flow.md) -/

/-- R161: the last live slot goes to `pc` unmasked and SP goes down; the slot keeps its value; after a return to 0xFFF or
above the next fetch fails. With SP = 0 the instruction raises `StackUnderflow`, and the step that runs it changes
nothing. -/
def Obligations.ReturnPopsThePc : Prop :=
  EncodedAs .ret 0x00EE#16 ∧
  (∀ (s : State) (j : Fin 16), s.sp.val = j.val + 1 →
    ∃ t, exec .ret s = .next t ∧ t.pc = s.stack[j] ∧ t.sp.val = j.val ∧
      ChangesOnly (fun p => p = .sp ∨ p = .pc) s t ∧
      (0xFFF ≤ (s.stack[j]).toNat → step t = .fault (.outOfBoundsFetch s.stack[j]))) ∧
  (∀ s : State, s.sp.val = 0 → exec .ret s = .fault (.stackUnderflow (s.pc - 2#16) 0x00EE#16)) ∧
  (∀ (font : Font) (s : State), s.pc.toNat < 0xFFF → s.opcodeAtPc = 0x00EE#16 → s.sp.val = 0 →
    HostOp.step.perform font s = (s, .err (.stackUnderflow s.pc 0x00EE#16)))

/-- R162: `pc` takes nnn. A jump to itself leaves the whole state as it is, and a jump to 0xFFF raises `OutOfBoundsFetch`
at the next step. -/
def Obligations.JumpSetsThePc : Prop :=
  (∀ nnn : Addr, EncodedAs (.jp nnn) (wordA 0x1000#16 nnn) ∧
    ∀ s : State, ∃ t, exec (.jp nnn) s = .next t ∧ t.pc.toNat = nnn.toNat ∧ ChangesOnly (fun p => p = .pc) s t ∧
      (nnn = 0xFFF#12 → step t = .fault (.outOfBoundsFetch 0xFFF#16))) ∧
  (∀ s : State, s.pc.toNat < 0xFFF → s.opcodeAtPc = 0x1000#16 ||| s.pc → step s = .next s)

/-- R163: the return address (the advanced `pc`) goes on the next free slot, SP goes up, `pc` takes nnn. With SP = 16 the
instruction raises `StackOverflow`, and the step that runs it changes nothing. -/
def Obligations.CallPushesTheReturnAddress : Prop :=
  (∀ nnn : Addr, EncodedAs (.call nnn) (wordA 0x2000#16 nnn)) ∧
  (∀ (nnn : Addr) (s : State) (j : Fin 16), s.sp.val = j.val →
    ∃ t, exec (.call nnn) s = .next t ∧ t.stack[j] = s.pc ∧ t.sp.val = j.val + 1 ∧ t.pc.toNat = nnn.toNat ∧
      ChangesOnly (fun p => p = .sp ∨ p = .pc ∨ p = .slot j) s t) ∧
  (∀ (nnn : Addr) (s : State), s.sp.val = 16 →
    exec (.call nnn) s = .fault (.stackOverflow (s.pc - 2#16) (wordA 0x2000#16 nnn))) ∧
  (∀ (font : Font) (nnn : Addr) (s : State), s.pc.toNat < 0xFFF → s.opcodeAtPc = wordA 0x2000#16 nnn →
    s.sp.val = 16 → HostOp.step.perform font s = (s, .err (.stackOverflow s.pc (wordA 0x2000#16 nnn))))

/-- A RET run at any `pc`, after a CALL and whatever left SP and the stack alone, comes back to the instruction after the
CALL with the stack pointer as it was before it (43_control_flow.md 2nnn, 00EE and the calling convention). -/
def Obligations.ReturnComesBackBehindTheCall : Prop :=
  ∀ (nnn : Addr) (s t u : State), exec (.call nnn) s = .next t → u.sp = t.sp → u.stack = t.stack →
    ∃ w, exec .ret u = .next w ∧ w.pc = s.pc ∧ w.sp = s.sp ∧
      ∀ j : Fin 16, j.val < s.sp.val → w.stack[j] = s.stack[j]

/-- R164 and R165. -/
def Obligations.ImmediateSkipsCompareVx : Prop :=
  ∀ (x : Nibble) (kk : Byte),
    EncodedAs (.seImm x kk) (wordXK 0x3000#16 x kk) ∧ EncodedAs (.sneImm x kk) (wordXK 0x4000#16 x kk) ∧
    ∀ s : State,
      (∃ t, exec (.seImm x kk) s = .next t ∧ t.pc = (if s.readV x = kk then s.pc + 2#16 else s.pc) ∧
        ChangesOnly (fun p => p = .pc) s t) ∧
      (∃ t, exec (.sneImm x kk) s = .next t ∧ t.pc = (if s.readV x ≠ kk then s.pc + 2#16 else s.pc) ∧
        ChangesOnly (fun p => p = .pc) s t)

/-- R166 and R167; the words of these families with a low nibble other than 0 are undefined. -/
def Obligations.RegisterSkipsCompareVxAndVy : Prop :=
  ∀ x y : Nibble,
    EncodedAs (.seReg x y) (wordXY 0x5000#16 x y) ∧ EncodedAs (.sneReg x y) (wordXY 0x9000#16 x y) ∧
    (∀ n : Nibble, n ≠ 0#4 → UndefinedWord (wordXYN 0x5000#16 x y n) ∧ UndefinedWord (wordXYN 0x9000#16 x y n)) ∧
    ∀ s : State,
      (∃ t, exec (.seReg x y) s = .next t ∧ t.pc = (if s.readV x = s.readV y then s.pc + 2#16 else s.pc) ∧
        ChangesOnly (fun p => p = .pc) s t) ∧
      (∃ t, exec (.sneReg x y) s = .next t ∧ t.pc = (if s.readV x ≠ s.readV y then s.pc + 2#16 else s.pc) ∧
        ChangesOnly (fun p => p = .pc) s t)

/-- Bnnn: the exact sum of nnn and V0, not reduced modulo 4096 (the spec's decision D37), whatever the nibble nnn starts
with. -/
def Obligations.JumpPlusV0AddsExactly : Prop :=
  ∀ (nnn : Addr) (s : State), ∃ t, exec (.jpV0 nnn) s = .next t ∧
    t.pc.toNat = nnn.toNat + (s.readV 0x0#4).toNat ∧ ChangesOnly (fun p => p = .pc) s t

/-! ### Timers, input and random (44_timer_input_random.md) -/

/-- Cxkk: whatever byte is drawn, Vx takes it ANDed with kk, so a bit of Vx can be 1 only where kk has a 1; the next draw is
another one. The draw is a free value (the spec's decision D22, log entry 2). -/
def Obligations.RandomIsMaskedByTheImmediate : Prop :=
  ∀ (x : Nibble) (kk : Byte) (s : State), ∃ t, exec (.rnd x kk) s = .next t ∧
    (∀ b : Byte, Config.rnd s.draws = b → t.readV x = b &&& kk) ∧
    (∀ k, k < 8 → (t.readV x).getLsbD k = true → kk.getLsbD k = true) ∧
    t.draws = s.draws + 1 ∧ ChangesOnly (fun p => p = .v x ∨ p = .draws) s t

/-- Ex9E and ExA1: the key that Vx names decides the skip; a Vx above 0xF raises `InvalidKeyIndex` (the spec's decision
D14). -/
def Obligations.KeySkipsReadTheNamedKey : Prop :=
  ∀ (x : Nibble) (s : State),
    (∀ k : Nibble, (s.readV x).toNat = k.toNat →
      (∃ t, exec (.skp x) s = .next t ∧ t.pc = (if s.keyDown k = true then s.pc + 2#16 else s.pc) ∧
        ChangesOnly (fun p => p = .pc) s t) ∧
      (∃ t, exec (.sknp x) s = .next t ∧ t.pc = (if s.keyDown k = false then s.pc + 2#16 else s.pc) ∧
        ChangesOnly (fun p => p = .pc) s t)) ∧
    (0xF < (s.readV x).toNat →
      exec (.skp x) s = .fault (.invalidKeyIndex (s.pc - 2#16) (wordX 0xE09E#16 x) (s.readV x)) ∧
      exec (.sknp x) s = .fault (.invalidKeyIndex (s.pc - 2#16) (wordX 0xE0A1#16 x) (s.readV x)))

/-- R183. -/
def Obligations.DelayTimerIsReadIntoVx : Prop :=
  ∀ x : Nibble, EncodedAs (.ldVxDt x) (wordX 0xF007#16 x) ∧
    ∀ s : State, ∃ t, exec (.ldVxDt x) s = .next t ∧ t.readV x = s.dt ∧ ChangesOnly (fun p => p = .v x) s t

/-- Fx0A: with a key down Vx takes the lowest; with none the step completes and the whole state is as before, `pc` at the
same instruction (the level, the lowest key and the rewind are the spec's decision D15). -/
def Obligations.KeyWaitTakesTheLowestKey : Prop :=
  ∀ x : Nibble,
    (∀ (s : State) (k : Nibble), s.keyDown k = true → (∀ j : Nibble, j.toNat < k.toNat → s.keyDown j = false) →
      ∃ t, exec (.ldVxK x) s = .next t ∧ (t.readV x).toNat = k.toNat ∧ ChangesOnly (fun p => p = .v x) s t) ∧
    (∀ s : State, (∀ k : Nibble, s.keyDown k = false) →
      ∃ t, exec (.ldVxK x) s = .next t ∧ t.pc = s.pc - 2#16 ∧ ChangesOnly (fun p => p = .pc) s t) ∧
    (∀ s : State, s.pc.toNat < 0xFFF → s.opcodeAtPc = wordX 0xF00A#16 x → (∀ k : Nibble, s.keyDown k = false) →
      step s = .next s)

/-- Fx15 and Fx18 (44_timer_input_random.md R185, R186): the timer takes Vx, so the next host tick makes it one less, and 0
stays 0 (60_exceptions.md R212, the spec's reading, decision D17). -/
def Obligations.TimersAreSetFromVx : Prop :=
  ∀ x : Nibble,
    EncodedAs (.ldDtVx x) (wordX 0xF015#16 x) ∧ EncodedAs (.ldStVx x) (wordX 0xF018#16 x) ∧
    ∀ s : State,
      (∃ t, exec (.ldDtVx x) s = .next t ∧ t.dt = s.readV x ∧ (tick t).dt.toNat = (s.readV x).toNat - 1 ∧
        ChangesOnly (fun p => p = .dt) s t) ∧
      (∃ t, exec (.ldStVx x) s = .next t ∧ t.st = s.readV x ∧ (tick t).st.toNat = (s.readV x).toNat - 1 ∧
        ChangesOnly (fun p => p = .st) s t)

/-- "No instruction reads it. ST has no effect on any other core state" (10_state.md R28, the spec's decision D26): with any
other value in ST every instruction completes as before, its state the same but for ST. -/
def Obligations.NoInstructionReadsTheSoundTimer : Prop :=
  ∀ (i : Instr) (s t : State) (b : Byte), exec i s = .next t →
    ∃ u, exec i (s.setSt b) = .next u ∧ u.setSt t.st = t ∧
      (u.st = b ∨ ∃ x, i = .ldStVx x ∧ u.st = s.readV x)

/-! ### The host interface (60_exceptions.md, 70_reset_and_hazards.md) -/

/-- The reset values of 10_state.md R35 for every FONT, from every state (70_reset_and_hazards.md R231, R232); the cleared
screen and keypad are the spec's decision D19. With the default FONT this is `State.reset`, but for the number of the next
draw, which reset leaves alone, and a second reset changes nothing. -/
def Obligations.ResetGivesTheListedValues : Prop :=
  (∀ (font : Font) (s t : State) (r : Result), HostOp.reset.perform font s = (t, r) →
    r = .ok ∧ (∀ x, t.readV x = 0#8) ∧ t.i = 0#16 ∧ t.pc = 0x200#16 ∧ t.sp.val = 0 ∧
    (∀ j : Fin 16, t.stack[j] = 0#16) ∧ t.dt = 0#8 ∧ t.st = 0#8 ∧
    (∀ (a : Addr) (b : Byte), font.toList[a.toNat - 0x050]? = some b → 0x050 ≤ a.toNat → t.memRead a.toNat = b) ∧
    (∀ a : Addr, a.toNat < 0x050 ∨ 0x0A0 ≤ a.toNat → t.memRead a.toNat = 0#8) ∧
    (∀ x y, t.fb.cell x y = false) ∧ (∀ k, t.keyDown k = false)) ∧
  (∀ s : State, resetWith fontDefault s = State.reset.withDraws s.draws) ∧
  (∀ (font : Font) (s : State), (resetWith font s).draws = s.draws) ∧
  (∀ (font : Font) (s : State), resetWith font (resetWith font s) = resetWith font s)

/-- `load-program` (70_reset_and_hazards.md R233; the exact range is the spec's decision D20): up to 3584 bytes appear from
0x200 on and nothing else changes; more are rejected with their number, and nothing changes. -/
def Obligations.LoadProgramWritesItsBytesOnly : Prop :=
  ∀ (font : Font) (bytes : List Byte) (s : State),
    (bytes.length ≤ 3584 → ∃ t, (HostOp.loadProgram bytes).perform font s = (t, .ok) ∧
      (∀ j b, bytes[j]? = some b → t.memRead (0x200 + j) = b) ∧ ChangesOnly (storedAt 0x200 bytes.length) s t) ∧
    (3584 < bytes.length →
      (HostOp.loadProgram bytes).perform font s = (s, .err (.programTooLarge bytes.length)))

/-- The first step after `reset` and `load-program` runs the opcode at 0x200 and 0x201 (70_reset_and_hazards.md R234 and
R235; its first byte the high one is the spec's decision D1). -/
def Obligations.TheFirstStepRunsTheLoadedOpcode : Prop :=
  ∀ (font : Font) (s : State) (hi lo : Byte) (rest : List Byte) (i : Instr) (t : State),
    (HostOp.loadProgram (hi :: lo :: rest)).perform font (resetWith font s) = (t, .ok) →
    decodeWord (wordOfBytes hi lo) = .ok i →
    step t = exec i { t with pc := 0x202#16 }

/-- A step after reset with nothing loaded raises `UnknownOpcode(0x0000)` (70_reset_and_hazards.md R243, marked by the spec
as derived). -/
def Obligations.AStepBeforeAnyLoadIsUnknownOpcode : Prop :=
  ∀ (font : Font) (s : State), step (resetWith font s) = .fault (.unknownOpcode 0x0000#16 0x0200#16)

/-- Any number of ticks takes each timer down by that number and stops at 0, and changes nothing else (60_exceptions.md
R212, the spec's decision D17). -/
def Obligations.TicksCountDownToZero : Prop :=
  ∀ (n : Nat) (s : State),
    (ticks n s).dt.toNat = s.dt.toNat - n ∧ (ticks n s).st.toNat = s.st.toNat - n ∧
    ChangesOnly (fun p => p = .dt ∨ p = .st) s (ticks n s)

/-- The host's view (60_exceptions.md R214, the spec's decision D38): set-keypad writes the 16 cells and nothing else; the
framebuffer is read flat, cell (x, y) at index y * 64 + x (10_state.md R30, marked by the spec as derived); the timers are
read as they are; reading changes nothing. -/
def Obligations.TheHostReadsAndWritesAsListed : Prop :=
  ∀ (font : Font) (s : State),
    (∀ k : Keypad, ∃ t, (HostOp.setKeypad k).perform font s = (t, .ok) ∧
      (∀ j : Fin 16, t.keyDown (BitVec.ofFin j) = k[j]) ∧ ChangesOnly (fun p => ∃ j, p = .key j) s t) ∧
    (readFramebuffer s).length = 2048 ∧
    (∀ (x : Fin 64) (y : Fin 32), (readFramebuffer s)[y.val * 64 + x.val]? = some (s.fb.cell x.val y.val)) ∧
    readTimers s = (s.dt, s.st) ∧
    HostOp.readFramebuffer.perform font s = (s, .ok) ∧ HostOp.readTimers.perform font s = (s, .ok)

/-- Each Cxkk takes a fresh draw (10_state.md R34, 44_timer_input_random.md R180; the spec's decision D22): the step that runs
it moves the draw counter on by one, and every other operation of the host interface, `reset` included, leaves it alone,
so that no schedule comes back to an earlier draw. The counter is the model's own (log entry 2). -/
def Obligations.NoScheduleRepeatsADraw : Prop :=
  (∀ (font : Font) (op : HostOp) (s : State),
    ((op = .step ∧ s.pc.toNat < 0xFFF ∧ ∃ x kk, decodeWord s.opcodeAtPc = .ok (.rnd x kk)) →
      (op.perform font s).1.draws = s.draws + 1) ∧
    (¬ (op = .step ∧ s.pc.toNat < 0xFFF ∧ ∃ x kk, decodeWord s.opcodeAtPc = .ok (.rnd x kk)) →
      (op.perform font s).1.draws = s.draws)) ∧
  (∀ (font : Font) (ops : List HostOp) (s : State), s.draws ≤ (performAll font ops s).draws)
end

