-- ==== Sys2Proof/Laws/Decode.lean ====
section
/-! SUPPORT. The fields of the three word layouts and the bytes of a word as numbers, so that no later proof opens an
encoding. -/

namespace Sys2Proof

theorem toNat_concat {m n : Nat} (a : BitVec m) (b : BitVec n) : (a ++ b).toNat = a.toNat * 2 ^ n + b.toNat := by
  rw [BitVec.toNat_append, ← Nat.shiftLeft_add_eq_or_of_lt b.isLt, Nat.shiftLeft_eq]

/-! ### the fields of a word, as numbers -/

theorem toNat_opF (op : Word) : (opF op).toNat = op.toNat / 4096 := by
  simp [opF, Nat.shiftRight_eq_div_pow]; omega

theorem toNat_opX (op : Word) : (opX op).toNat = op.toNat / 256 % 16 := by
  simp [opX, Nat.shiftRight_eq_div_pow]

theorem toNat_opY (op : Word) : (opY op).toNat = op.toNat / 16 % 16 := by
  simp [opY, Nat.shiftRight_eq_div_pow]

theorem toNat_opN (op : Word) : (opN op).toNat = op.toNat % 16 := by
  simp [opN]

theorem toNat_opKK (op : Word) : (opKK op).toNat = op.toNat % 256 := by
  simp [opKK]

theorem toNat_opNNN (op : Word) : (opNNN op).toNat = op.toNat % 4096 := by
  simp [opNNN]

/-! ### the layouts of R73, as numbers -/

theorem toNat_encodeA (f : Nibble) (nnn : Addr) : (encodeA f nnn).toNat = f.toNat * 4096 + nnn.toNat :=
  toNat_concat f nnn

theorem toNat_encodeXK (f x : Nibble) (kk : Byte) :
    (encodeXK f x kk).toNat = f.toNat * 4096 + x.toNat * 256 + kk.toNat := by
  have h : (encodeXK f x kk).toNat = (f ++ x).toNat * 256 + kk.toNat := toNat_concat (f ++ x) kk
  rw [h, toNat_concat]; omega

theorem toNat_encodeXYN (f x y n : Nibble) :
    (encodeXYN f x y n).toNat = f.toNat * 4096 + x.toNat * 256 + y.toNat * 16 + n.toNat := by
  have h : (encodeXYN f x y n).toNat = (f ++ x ++ y).toNat * 16 + n.toNat := toNat_concat (f ++ x ++ y) n
  rw [h, toNat_concat, toNat_concat]; omega

/-! ### the fields of a layout -/

@[simp] theorem opF_encodeA (f : Nibble) (nnn : Addr) : opF (encodeA f nnn) = f := by
  apply BitVec.eq_of_toNat_eq; rw [toNat_opF, toNat_encodeA]; omega

@[simp] theorem opNNN_encodeA (f : Nibble) (nnn : Addr) : opNNN (encodeA f nnn) = nnn := by
  apply BitVec.eq_of_toNat_eq; rw [toNat_opNNN, toNat_encodeA]; omega

@[simp] theorem opF_encodeXK (f x : Nibble) (kk : Byte) : opF (encodeXK f x kk) = f := by
  apply BitVec.eq_of_toNat_eq; rw [toNat_opF, toNat_encodeXK]; omega

@[simp] theorem opX_encodeXK (f x : Nibble) (kk : Byte) : opX (encodeXK f x kk) = x := by
  apply BitVec.eq_of_toNat_eq; rw [toNat_opX, toNat_encodeXK]; omega

@[simp] theorem opKK_encodeXK (f x : Nibble) (kk : Byte) : opKK (encodeXK f x kk) = kk := by
  apply BitVec.eq_of_toNat_eq; rw [toNat_opKK, toNat_encodeXK]; omega

@[simp] theorem opF_encodeXYN (f x y n : Nibble) : opF (encodeXYN f x y n) = f := by
  apply BitVec.eq_of_toNat_eq; rw [toNat_opF, toNat_encodeXYN]; omega

@[simp] theorem opX_encodeXYN (f x y n : Nibble) : opX (encodeXYN f x y n) = x := by
  apply BitVec.eq_of_toNat_eq; rw [toNat_opX, toNat_encodeXYN]; omega

@[simp] theorem opY_encodeXYN (f x y n : Nibble) : opY (encodeXYN f x y n) = y := by
  apply BitVec.eq_of_toNat_eq; rw [toNat_opY, toNat_encodeXYN]; omega

@[simp] theorem opN_encodeXYN (f x y n : Nibble) : opN (encodeXYN f x y n) = n := by
  apply BitVec.eq_of_toNat_eq; rw [toNat_opN, toNat_encodeXYN]; omega

/-! ### a word rebuilt from its fields -/

theorem encodeA_fields (op : Word) : encodeA (opF op) (opNNN op) = op := by
  apply BitVec.eq_of_toNat_eq; rw [toNat_encodeA, toNat_opF, toNat_opNNN]; omega

theorem encodeXK_fields (op : Word) : encodeXK (opF op) (opX op) (opKK op) = op := by
  apply BitVec.eq_of_toNat_eq; rw [toNat_encodeXK, toNat_opF, toNat_opX, toNat_opKK]; omega

theorem encodeXYN_fields (op : Word) : encodeXYN (opF op) (opX op) (opY op) (opN op) = op := by
  apply BitVec.eq_of_toNat_eq; rw [toNat_encodeXYN, toNat_opF, toNat_opX, toNat_opY, toNat_opN]; omega

/-! ### the two bytes of a word (20_memory.md R53) -/

theorem toNat_wordOfBytes (hi lo : Byte) : (wordOfBytes hi lo).toNat = hi.toNat * 256 + lo.toNat :=
  toNat_concat hi lo

theorem toNat_highByte (w : Word) : (highByte w).toNat = w.toNat / 256 := by
  simp [highByte, Nat.shiftRight_eq_div_pow]; omega

theorem toNat_lowByte (w : Word) : (lowByte w).toNat = w.toNat % 256 := by
  simp [lowByte]

@[simp] theorem wordOfBytes_highByte_lowByte (w : Word) : wordOfBytes (highByte w) (lowByte w) = w := by
  apply BitVec.eq_of_toNat_eq; rw [toNat_wordOfBytes, toNat_highByte, toNat_lowByte]; omega

@[simp] theorem highByte_wordOfBytes (hi lo : Byte) : highByte (wordOfBytes hi lo) = hi := by
  apply BitVec.eq_of_toNat_eq; rw [toNat_highByte, toNat_wordOfBytes]; omega

@[simp] theorem lowByte_wordOfBytes (hi lo : Byte) : lowByte (wordOfBytes hi lo) = lo := by
  apply BitVec.eq_of_toNat_eq; rw [toNat_lowByte, toNat_wordOfBytes]; omega

/-- The bytes of an instruction decode as its word does, and leave the rest. -/
theorem decode_encodeBytes (i : Instr) (rest : List Byte) :
    decode (encodeBytes i ++ rest) = (decodeWord (encode i)).map (fun j => (j, rest)) := by
  simp [encodeBytes, decode]

end Sys2Proof
end

