-- ==== Sys2Proof/Laws/State.lean ====
section
/-! SUPPORT. One lemma for each field and each named update of State: what an update leaves alone, and what it sets. -/

namespace Sys2Proof.Machine

/-! ### writeV -/

@[simp] theorem State.writeV_i (s : State) (x : Nibble) (b : Byte) : (s.writeV x b).i = s.i := rfl

@[simp] theorem State.writeV_pc (s : State) (x : Nibble) (b : Byte) : (s.writeV x b).pc = s.pc := rfl

@[simp] theorem State.writeV_sp (s : State) (x : Nibble) (b : Byte) : (s.writeV x b).sp = s.sp := rfl

@[simp] theorem State.writeV_stack (s : State) (x : Nibble) (b : Byte) : (s.writeV x b).stack = s.stack := rfl

@[simp] theorem State.writeV_dt (s : State) (x : Nibble) (b : Byte) : (s.writeV x b).dt = s.dt := rfl

@[simp] theorem State.writeV_st (s : State) (x : Nibble) (b : Byte) : (s.writeV x b).st = s.st := rfl

@[simp] theorem State.writeV_mem (s : State) (x : Nibble) (b : Byte) : (s.writeV x b).mem = s.mem := rfl

@[simp] theorem State.writeV_fb (s : State) (x : Nibble) (b : Byte) : (s.writeV x b).fb = s.fb := rfl

@[simp] theorem State.writeV_key (s : State) (x : Nibble) (b : Byte) : (s.writeV x b).key = s.key := rfl

@[simp] theorem State.writeV_draws (s : State) (x : Nibble) (b : Byte) : (s.writeV x b).draws = s.draws := rfl

@[simp] theorem State.writeV_memRead (s : State) (x : Nibble) (b : Byte) (q : Nat) : (s.writeV x b).memRead q = s.memRead q := rfl

/-! ### writeRange -/

@[simp] theorem State.writeRange_i (s : State) (x : Nibble) (bs : List Byte) : (s.writeRange x bs).i = s.i := rfl

@[simp] theorem State.writeRange_pc (s : State) (x : Nibble) (bs : List Byte) : (s.writeRange x bs).pc = s.pc := rfl

@[simp] theorem State.writeRange_sp (s : State) (x : Nibble) (bs : List Byte) : (s.writeRange x bs).sp = s.sp := rfl

@[simp] theorem State.writeRange_stack (s : State) (x : Nibble) (bs : List Byte) : (s.writeRange x bs).stack = s.stack := rfl

@[simp] theorem State.writeRange_dt (s : State) (x : Nibble) (bs : List Byte) : (s.writeRange x bs).dt = s.dt := rfl

@[simp] theorem State.writeRange_st (s : State) (x : Nibble) (bs : List Byte) : (s.writeRange x bs).st = s.st := rfl

@[simp] theorem State.writeRange_mem (s : State) (x : Nibble) (bs : List Byte) : (s.writeRange x bs).mem = s.mem := rfl

@[simp] theorem State.writeRange_fb (s : State) (x : Nibble) (bs : List Byte) : (s.writeRange x bs).fb = s.fb := rfl

@[simp] theorem State.writeRange_key (s : State) (x : Nibble) (bs : List Byte) : (s.writeRange x bs).key = s.key := rfl

@[simp] theorem State.writeRange_draws (s : State) (x : Nibble) (bs : List Byte) : (s.writeRange x bs).draws = s.draws := rfl

@[simp] theorem State.writeRange_memRead (s : State) (x : Nibble) (bs : List Byte) (q : Nat) : (s.writeRange x bs).memRead q = s.memRead q := rfl

/-! ### setI -/

@[simp] theorem State.setI_v (s : State) (w : Word) : (s.setI w).v = s.v := rfl

@[simp] theorem State.setI_i (s : State) (w : Word) : (s.setI w).i = w := rfl

@[simp] theorem State.setI_pc (s : State) (w : Word) : (s.setI w).pc = s.pc := rfl

@[simp] theorem State.setI_sp (s : State) (w : Word) : (s.setI w).sp = s.sp := rfl

@[simp] theorem State.setI_stack (s : State) (w : Word) : (s.setI w).stack = s.stack := rfl

@[simp] theorem State.setI_dt (s : State) (w : Word) : (s.setI w).dt = s.dt := rfl

@[simp] theorem State.setI_st (s : State) (w : Word) : (s.setI w).st = s.st := rfl

@[simp] theorem State.setI_mem (s : State) (w : Word) : (s.setI w).mem = s.mem := rfl

@[simp] theorem State.setI_fb (s : State) (w : Word) : (s.setI w).fb = s.fb := rfl

@[simp] theorem State.setI_key (s : State) (w : Word) : (s.setI w).key = s.key := rfl

@[simp] theorem State.setI_draws (s : State) (w : Word) : (s.setI w).draws = s.draws := rfl

@[simp] theorem State.setI_readV (s : State) (w : Word) (r : Nibble) : (s.setI w).readV r = s.readV r := rfl

@[simp] theorem State.setI_memRead (s : State) (w : Word) (q : Nat) : (s.setI w).memRead q = s.memRead q := rfl

/-! ### setDt -/

@[simp] theorem State.setDt_v (s : State) (b : Byte) : (s.setDt b).v = s.v := rfl

@[simp] theorem State.setDt_i (s : State) (b : Byte) : (s.setDt b).i = s.i := rfl

@[simp] theorem State.setDt_pc (s : State) (b : Byte) : (s.setDt b).pc = s.pc := rfl

@[simp] theorem State.setDt_sp (s : State) (b : Byte) : (s.setDt b).sp = s.sp := rfl

@[simp] theorem State.setDt_stack (s : State) (b : Byte) : (s.setDt b).stack = s.stack := rfl

@[simp] theorem State.setDt_dt (s : State) (b : Byte) : (s.setDt b).dt = b := rfl

@[simp] theorem State.setDt_st (s : State) (b : Byte) : (s.setDt b).st = s.st := rfl

@[simp] theorem State.setDt_mem (s : State) (b : Byte) : (s.setDt b).mem = s.mem := rfl

@[simp] theorem State.setDt_fb (s : State) (b : Byte) : (s.setDt b).fb = s.fb := rfl

@[simp] theorem State.setDt_key (s : State) (b : Byte) : (s.setDt b).key = s.key := rfl

@[simp] theorem State.setDt_draws (s : State) (b : Byte) : (s.setDt b).draws = s.draws := rfl

@[simp] theorem State.setDt_readV (s : State) (b : Byte) (r : Nibble) : (s.setDt b).readV r = s.readV r := rfl

@[simp] theorem State.setDt_memRead (s : State) (b : Byte) (q : Nat) : (s.setDt b).memRead q = s.memRead q := rfl

/-! ### setSt -/

@[simp] theorem State.setSt_v (s : State) (b : Byte) : (s.setSt b).v = s.v := rfl

@[simp] theorem State.setSt_i (s : State) (b : Byte) : (s.setSt b).i = s.i := rfl

@[simp] theorem State.setSt_pc (s : State) (b : Byte) : (s.setSt b).pc = s.pc := rfl

@[simp] theorem State.setSt_sp (s : State) (b : Byte) : (s.setSt b).sp = s.sp := rfl

@[simp] theorem State.setSt_stack (s : State) (b : Byte) : (s.setSt b).stack = s.stack := rfl

@[simp] theorem State.setSt_dt (s : State) (b : Byte) : (s.setSt b).dt = s.dt := rfl

@[simp] theorem State.setSt_st (s : State) (b : Byte) : (s.setSt b).st = b := rfl

@[simp] theorem State.setSt_mem (s : State) (b : Byte) : (s.setSt b).mem = s.mem := rfl

@[simp] theorem State.setSt_fb (s : State) (b : Byte) : (s.setSt b).fb = s.fb := rfl

@[simp] theorem State.setSt_key (s : State) (b : Byte) : (s.setSt b).key = s.key := rfl

@[simp] theorem State.setSt_draws (s : State) (b : Byte) : (s.setSt b).draws = s.draws := rfl

@[simp] theorem State.setSt_readV (s : State) (b : Byte) (r : Nibble) : (s.setSt b).readV r = s.readV r := rfl

@[simp] theorem State.setSt_memRead (s : State) (b : Byte) (q : Nat) : (s.setSt b).memRead q = s.memRead q := rfl

/-! ### jump -/

@[simp] theorem State.jump_v (s : State) (w : Word) : (s.jump w).v = s.v := rfl

@[simp] theorem State.jump_i (s : State) (w : Word) : (s.jump w).i = s.i := rfl

@[simp] theorem State.jump_pc (s : State) (w : Word) : (s.jump w).pc = w := rfl

@[simp] theorem State.jump_sp (s : State) (w : Word) : (s.jump w).sp = s.sp := rfl

@[simp] theorem State.jump_stack (s : State) (w : Word) : (s.jump w).stack = s.stack := rfl

@[simp] theorem State.jump_dt (s : State) (w : Word) : (s.jump w).dt = s.dt := rfl

@[simp] theorem State.jump_st (s : State) (w : Word) : (s.jump w).st = s.st := rfl

@[simp] theorem State.jump_mem (s : State) (w : Word) : (s.jump w).mem = s.mem := rfl

@[simp] theorem State.jump_fb (s : State) (w : Word) : (s.jump w).fb = s.fb := rfl

@[simp] theorem State.jump_key (s : State) (w : Word) : (s.jump w).key = s.key := rfl

@[simp] theorem State.jump_draws (s : State) (w : Word) : (s.jump w).draws = s.draws := rfl

@[simp] theorem State.jump_readV (s : State) (w : Word) (r : Nibble) : (s.jump w).readV r = s.readV r := rfl

@[simp] theorem State.jump_memRead (s : State) (w : Word) (q : Nat) : (s.jump w).memRead q = s.memRead q := rfl

/-! ### advance -/

@[simp] theorem State.advance_v (s : State) : (s.advance).v = s.v := rfl

@[simp] theorem State.advance_i (s : State) : (s.advance).i = s.i := rfl

@[simp] theorem State.advance_pc (s : State) : (s.advance).pc = s.pc + 2#16 := rfl

@[simp] theorem State.advance_sp (s : State) : (s.advance).sp = s.sp := rfl

@[simp] theorem State.advance_stack (s : State) : (s.advance).stack = s.stack := rfl

@[simp] theorem State.advance_dt (s : State) : (s.advance).dt = s.dt := rfl

@[simp] theorem State.advance_st (s : State) : (s.advance).st = s.st := rfl

@[simp] theorem State.advance_mem (s : State) : (s.advance).mem = s.mem := rfl

@[simp] theorem State.advance_fb (s : State) : (s.advance).fb = s.fb := rfl

@[simp] theorem State.advance_key (s : State) : (s.advance).key = s.key := rfl

@[simp] theorem State.advance_draws (s : State) : (s.advance).draws = s.draws := rfl

@[simp] theorem State.advance_readV (s : State) (r : Nibble) : (s.advance).readV r = s.readV r := rfl

@[simp] theorem State.advance_memRead (s : State) (q : Nat) : (s.advance).memRead q = s.memRead q := rfl

/-! ### memWrite -/

@[simp] theorem State.memWrite_v (s : State) (a : Nat) (b : Byte) : (s.memWrite a b).v = s.v := rfl

@[simp] theorem State.memWrite_i (s : State) (a : Nat) (b : Byte) : (s.memWrite a b).i = s.i := rfl

@[simp] theorem State.memWrite_pc (s : State) (a : Nat) (b : Byte) : (s.memWrite a b).pc = s.pc := rfl

@[simp] theorem State.memWrite_sp (s : State) (a : Nat) (b : Byte) : (s.memWrite a b).sp = s.sp := rfl

@[simp] theorem State.memWrite_stack (s : State) (a : Nat) (b : Byte) : (s.memWrite a b).stack = s.stack := rfl

@[simp] theorem State.memWrite_dt (s : State) (a : Nat) (b : Byte) : (s.memWrite a b).dt = s.dt := rfl

@[simp] theorem State.memWrite_st (s : State) (a : Nat) (b : Byte) : (s.memWrite a b).st = s.st := rfl

@[simp] theorem State.memWrite_mem (s : State) (a : Nat) (b : Byte) : (s.memWrite a b).mem = s.mem.write (a % 4096) b := rfl

@[simp] theorem State.memWrite_fb (s : State) (a : Nat) (b : Byte) : (s.memWrite a b).fb = s.fb := rfl

@[simp] theorem State.memWrite_key (s : State) (a : Nat) (b : Byte) : (s.memWrite a b).key = s.key := rfl

@[simp] theorem State.memWrite_draws (s : State) (a : Nat) (b : Byte) : (s.memWrite a b).draws = s.draws := rfl

@[simp] theorem State.memWrite_readV (s : State) (a : Nat) (b : Byte) (r : Nibble) : (s.memWrite a b).readV r = s.readV r := rfl

/-! ### setFb -/

@[simp] theorem State.setFb_v (s : State) (f : Framebuffer) : (s.setFb f).v = s.v := rfl

@[simp] theorem State.setFb_i (s : State) (f : Framebuffer) : (s.setFb f).i = s.i := rfl

@[simp] theorem State.setFb_pc (s : State) (f : Framebuffer) : (s.setFb f).pc = s.pc := rfl

@[simp] theorem State.setFb_sp (s : State) (f : Framebuffer) : (s.setFb f).sp = s.sp := rfl

@[simp] theorem State.setFb_stack (s : State) (f : Framebuffer) : (s.setFb f).stack = s.stack := rfl

@[simp] theorem State.setFb_dt (s : State) (f : Framebuffer) : (s.setFb f).dt = s.dt := rfl

@[simp] theorem State.setFb_st (s : State) (f : Framebuffer) : (s.setFb f).st = s.st := rfl

@[simp] theorem State.setFb_mem (s : State) (f : Framebuffer) : (s.setFb f).mem = s.mem := rfl

@[simp] theorem State.setFb_fb (s : State) (f : Framebuffer) : (s.setFb f).fb = f := rfl

@[simp] theorem State.setFb_key (s : State) (f : Framebuffer) : (s.setFb f).key = s.key := rfl

@[simp] theorem State.setFb_draws (s : State) (f : Framebuffer) : (s.setFb f).draws = s.draws := rfl

@[simp] theorem State.setFb_readV (s : State) (f : Framebuffer) (r : Nibble) : (s.setFb f).readV r = s.readV r := rfl

@[simp] theorem State.setFb_memRead (s : State) (f : Framebuffer) (q : Nat) : (s.setFb f).memRead q = s.memRead q := rfl

/-! ### withDraws -/

@[simp] theorem State.withDraws_v (s : State) (d : Nat) : (s.withDraws d).v = s.v := rfl

@[simp] theorem State.withDraws_i (s : State) (d : Nat) : (s.withDraws d).i = s.i := rfl

@[simp] theorem State.withDraws_pc (s : State) (d : Nat) : (s.withDraws d).pc = s.pc := rfl

@[simp] theorem State.withDraws_sp (s : State) (d : Nat) : (s.withDraws d).sp = s.sp := rfl

@[simp] theorem State.withDraws_stack (s : State) (d : Nat) : (s.withDraws d).stack = s.stack := rfl

@[simp] theorem State.withDraws_dt (s : State) (d : Nat) : (s.withDraws d).dt = s.dt := rfl

@[simp] theorem State.withDraws_st (s : State) (d : Nat) : (s.withDraws d).st = s.st := rfl

@[simp] theorem State.withDraws_mem (s : State) (d : Nat) : (s.withDraws d).mem = s.mem := rfl

@[simp] theorem State.withDraws_fb (s : State) (d : Nat) : (s.withDraws d).fb = s.fb := rfl

@[simp] theorem State.withDraws_key (s : State) (d : Nat) : (s.withDraws d).key = s.key := rfl

@[simp] theorem State.withDraws_draws (s : State) (d : Nat) : (s.withDraws d).draws = d := rfl

@[simp] theorem State.withDraws_readV (s : State) (d : Nat) (r : Nibble) : (s.withDraws d).readV r = s.readV r := rfl

@[simp] theorem State.withDraws_memRead (s : State) (d : Nat) (q : Nat) : (s.withDraws d).memRead q = s.memRead q := rfl

@[simp] theorem State.withDraws_withDraws (s : State) (d e : Nat) : (s.withDraws d).withDraws e = s.withDraws e := rfl

@[simp] theorem State.withDraws_self (s : State) : s.withDraws s.draws = s := rfl

/-! ### nextDraw -/

@[simp] theorem State.nextDraw_v (s : State) : (s.nextDraw).v = s.v := rfl

@[simp] theorem State.nextDraw_i (s : State) : (s.nextDraw).i = s.i := rfl

@[simp] theorem State.nextDraw_pc (s : State) : (s.nextDraw).pc = s.pc := rfl

@[simp] theorem State.nextDraw_sp (s : State) : (s.nextDraw).sp = s.sp := rfl

@[simp] theorem State.nextDraw_stack (s : State) : (s.nextDraw).stack = s.stack := rfl

@[simp] theorem State.nextDraw_dt (s : State) : (s.nextDraw).dt = s.dt := rfl

@[simp] theorem State.nextDraw_st (s : State) : (s.nextDraw).st = s.st := rfl

@[simp] theorem State.nextDraw_mem (s : State) : (s.nextDraw).mem = s.mem := rfl

@[simp] theorem State.nextDraw_fb (s : State) : (s.nextDraw).fb = s.fb := rfl

@[simp] theorem State.nextDraw_key (s : State) : (s.nextDraw).key = s.key := rfl

@[simp] theorem State.nextDraw_draws (s : State) : (s.nextDraw).draws = s.draws + 1 := rfl

@[simp] theorem State.nextDraw_readV (s : State) (r : Nibble) : (s.nextDraw).readV r = s.readV r := rfl

@[simp] theorem State.nextDraw_memRead (s : State) (q : Nat) : (s.nextDraw).memRead q = s.memRead q := rfl

/-! ### skipIf -/

@[simp] theorem State.skipIf_v (s : State) (c : Bool) : (s.skipIf c).v = s.v := by cases c <;> rfl

@[simp] theorem State.skipIf_i (s : State) (c : Bool) : (s.skipIf c).i = s.i := by cases c <;> rfl

@[simp] theorem State.skipIf_pc (s : State) (c : Bool) : (s.skipIf c).pc = if c then s.pc + 2#16 else s.pc := by cases c <;> rfl

@[simp] theorem State.skipIf_sp (s : State) (c : Bool) : (s.skipIf c).sp = s.sp := by cases c <;> rfl

@[simp] theorem State.skipIf_stack (s : State) (c : Bool) : (s.skipIf c).stack = s.stack := by cases c <;> rfl

@[simp] theorem State.skipIf_dt (s : State) (c : Bool) : (s.skipIf c).dt = s.dt := by cases c <;> rfl

@[simp] theorem State.skipIf_st (s : State) (c : Bool) : (s.skipIf c).st = s.st := by cases c <;> rfl

@[simp] theorem State.skipIf_mem (s : State) (c : Bool) : (s.skipIf c).mem = s.mem := by cases c <;> rfl

@[simp] theorem State.skipIf_fb (s : State) (c : Bool) : (s.skipIf c).fb = s.fb := by cases c <;> rfl

@[simp] theorem State.skipIf_key (s : State) (c : Bool) : (s.skipIf c).key = s.key := by cases c <;> rfl

@[simp] theorem State.skipIf_draws (s : State) (c : Bool) : (s.skipIf c).draws = s.draws := by cases c <;> rfl

@[simp] theorem State.skipIf_readV (s : State) (c : Bool) (r : Nibble) : (s.skipIf c).readV r = s.readV r := by unfold State.readV; simp

@[simp] theorem State.skipIf_memRead (s : State) (c : Bool) (q : Nat) : (s.skipIf c).memRead q = s.memRead q := by unfold State.memRead; simp

/-! ### storeBytes -/

@[simp] theorem State.storeBytes_v (s : State) (a : Nat) (bs : List Byte) : (s.storeBytes a bs).v = s.v := by
  induction bs generalizing s a with
  | nil => rfl
  | cons b bs ih => exact ih (s.memWrite a b) (a + 1)

@[simp] theorem State.storeBytes_i (s : State) (a : Nat) (bs : List Byte) : (s.storeBytes a bs).i = s.i := by
  induction bs generalizing s a with
  | nil => rfl
  | cons b bs ih => exact ih (s.memWrite a b) (a + 1)

@[simp] theorem State.storeBytes_pc (s : State) (a : Nat) (bs : List Byte) : (s.storeBytes a bs).pc = s.pc := by
  induction bs generalizing s a with
  | nil => rfl
  | cons b bs ih => exact ih (s.memWrite a b) (a + 1)

@[simp] theorem State.storeBytes_sp (s : State) (a : Nat) (bs : List Byte) : (s.storeBytes a bs).sp = s.sp := by
  induction bs generalizing s a with
  | nil => rfl
  | cons b bs ih => exact ih (s.memWrite a b) (a + 1)

@[simp] theorem State.storeBytes_stack (s : State) (a : Nat) (bs : List Byte) : (s.storeBytes a bs).stack = s.stack := by
  induction bs generalizing s a with
  | nil => rfl
  | cons b bs ih => exact ih (s.memWrite a b) (a + 1)

@[simp] theorem State.storeBytes_dt (s : State) (a : Nat) (bs : List Byte) : (s.storeBytes a bs).dt = s.dt := by
  induction bs generalizing s a with
  | nil => rfl
  | cons b bs ih => exact ih (s.memWrite a b) (a + 1)

@[simp] theorem State.storeBytes_st (s : State) (a : Nat) (bs : List Byte) : (s.storeBytes a bs).st = s.st := by
  induction bs generalizing s a with
  | nil => rfl
  | cons b bs ih => exact ih (s.memWrite a b) (a + 1)

@[simp] theorem State.storeBytes_fb (s : State) (a : Nat) (bs : List Byte) : (s.storeBytes a bs).fb = s.fb := by
  induction bs generalizing s a with
  | nil => rfl
  | cons b bs ih => exact ih (s.memWrite a b) (a + 1)

@[simp] theorem State.storeBytes_key (s : State) (a : Nat) (bs : List Byte) : (s.storeBytes a bs).key = s.key := by
  induction bs generalizing s a with
  | nil => rfl
  | cons b bs ih => exact ih (s.memWrite a b) (a + 1)

@[simp] theorem State.storeBytes_draws (s : State) (a : Nat) (bs : List Byte) : (s.storeBytes a bs).draws = s.draws := by
  induction bs generalizing s a with
  | nil => rfl
  | cons b bs ih => exact ih (s.memWrite a b) (a + 1)

theorem State.storeBytes_withDraws (s : State) (a d : Nat) (bs : List Byte) :
    (s.withDraws d).storeBytes a bs = (s.storeBytes a bs).withDraws d := by
  induction bs generalizing s a with
  | nil => rfl
  | cons b bs ih => exact ih (s.memWrite a b) (a + 1)

@[simp] theorem State.storeBytes_readV (s : State) (a : Nat) (bs : List Byte) (r : Nibble) : (s.storeBytes a bs).readV r = s.readV r := by unfold State.readV; simp

/-! ### writeFlagThenResult -/

@[simp] theorem State.writeFlagThenResult_i (s : State) (x : Nibble) (f : Bool) (b : Byte) : (s.writeFlagThenResult x f b).i = s.i := rfl

@[simp] theorem State.writeFlagThenResult_pc (s : State) (x : Nibble) (f : Bool) (b : Byte) : (s.writeFlagThenResult x f b).pc = s.pc := rfl

@[simp] theorem State.writeFlagThenResult_sp (s : State) (x : Nibble) (f : Bool) (b : Byte) : (s.writeFlagThenResult x f b).sp = s.sp := rfl

@[simp] theorem State.writeFlagThenResult_stack (s : State) (x : Nibble) (f : Bool) (b : Byte) : (s.writeFlagThenResult x f b).stack = s.stack := rfl

@[simp] theorem State.writeFlagThenResult_dt (s : State) (x : Nibble) (f : Bool) (b : Byte) : (s.writeFlagThenResult x f b).dt = s.dt := rfl

@[simp] theorem State.writeFlagThenResult_st (s : State) (x : Nibble) (f : Bool) (b : Byte) : (s.writeFlagThenResult x f b).st = s.st := rfl

@[simp] theorem State.writeFlagThenResult_mem (s : State) (x : Nibble) (f : Bool) (b : Byte) : (s.writeFlagThenResult x f b).mem = s.mem := rfl

@[simp] theorem State.writeFlagThenResult_fb (s : State) (x : Nibble) (f : Bool) (b : Byte) : (s.writeFlagThenResult x f b).fb = s.fb := rfl

@[simp] theorem State.writeFlagThenResult_key (s : State) (x : Nibble) (f : Bool) (b : Byte) : (s.writeFlagThenResult x f b).key = s.key := rfl

@[simp] theorem State.writeFlagThenResult_draws (s : State) (x : Nibble) (f : Bool) (b : Byte) : (s.writeFlagThenResult x f b).draws = s.draws := rfl

@[simp] theorem State.writeFlagThenResult_memRead (s : State) (x : Nibble) (f : Bool) (b : Byte) (q : Nat) : (s.writeFlagThenResult x f b).memRead q = s.memRead q := rfl

/-! ### reading a register after a write -/

@[simp] theorem State.readV_writeV_self (s : State) (x : Nibble) (b : Byte) : (s.writeV x b).readV x = b := by
  simp [State.readV, State.writeV]

theorem State.readV_writeV_ne (s : State) {x r : Nibble} (b : Byte) (h : r ≠ x) :
    (s.writeV x b).readV r = s.readV r := by
  have hne : x.toNat ≠ r.toNat := fun e => h (BitVec.eq_of_toNat_eq e.symm)
  simp [State.readV, State.writeV, Vector.getElem_set_ne, hne]

theorem State.readV_writeV (s : State) (x r : Nibble) (b : Byte) :
    (s.writeV x b).readV r = if r = x then b else s.readV r := by
  split
  · next h => subst h; simp
  · next h => exact State.readV_writeV_ne s b h

/-- The two writes of R85 as one read: the result at x, the flag at VF when x is another register. -/
theorem State.readV_writeFlagThenResult (s : State) (x r : Nibble) (f : Bool) (b : Byte) :
    (s.writeFlagThenResult x f b).readV r =
      if r = x then b else if r = 0xF#4 then flagByte f else s.readV r := by
  simp only [State.writeFlagThenResult, State.readV_writeV]

theorem State.readV_writeRange (s : State) (x r : Nibble) (bs : List Byte) :
    (s.writeRange x bs).readV r = if r.toNat ≤ x.toNat then bs.getD r.toNat 0x00#8 else s.readV r := by
  simp [State.readV, State.writeRange]

/-! ### the stack -/

/-- Everything a push can do: the word on the next free slot, one more live slot, nothing else; or none when full. -/
theorem State.push_eq_some {s t : State} {w : Word} (h : s.push w = some t) :
    ∃ hlt : s.sp.val < 16, t = { s with stack := s.stack.set s.sp.val w hlt, sp := ⟨s.sp.val + 1, Nat.succ_lt_succ hlt⟩ } := by
  unfold State.push at h
  split at h
  · next hlt => exact ⟨hlt, (Option.some.inj h).symm⟩
  · cases h

theorem State.push_eq_none {s : State} {w : Word} : s.push w = none ↔ s.sp.val = 16 := by
  have := s.sp.isLt
  unfold State.push
  split <;> simp <;> omega

/-- Everything a pop can do: the last live slot's word, one live slot less, nothing else; or none when empty. -/
theorem State.pop_eq_some {s t : State} {w : Word} (h : s.pop = some (w, t)) :
    ∃ hpos : 0 < s.sp.val, w = s.stack[s.sp.val - 1]'(by have := s.sp.isLt; omega) ∧
      t = { s with sp := ⟨s.sp.val - 1, by have := s.sp.isLt; omega⟩ } := by
  unfold State.pop at h
  split at h
  · next hpos =>
    have h' := Option.some.inj h
    exact ⟨hpos, (congrArg Prod.fst h').symm, (congrArg Prod.snd h').symm⟩
  · cases h

theorem State.pop_eq_none {s : State} : s.pop = none ↔ s.sp.val = 0 := by
  unfold State.pop
  split <;> simp <;> omega

/-! ### the framebuffer -/

theorem Framebuffer.cell_toggle_self (fb : Framebuffer) (x y : Nat) :
    (fb.toggle x y).cell x y = !fb.cell x y := by
  simp [Framebuffer.toggle, Framebuffer.cell]

theorem Framebuffer.cell_toggle_ne (fb : Framebuffer) {x y px py : Nat}
    (h : px % 64 ≠ x % 64 ∨ py % 32 ≠ y % 32) : (fb.toggle x y).cell px py = fb.cell px py := by
  unfold Framebuffer.toggle Framebuffer.cell
  by_cases hy : y % 32 = py % 32
  · have hx : x % 64 ≠ px % 64 := by omega
    simp [hy, Vector.getElem_set_ne, hx]
  · simp [Vector.getElem_set_ne, hy]

@[simp] theorem Framebuffer.cell_clear (x y : Nat) : Framebuffer.clear.cell x y = false := by
  simp [Framebuffer.cell, Framebuffer.clear]

theorem Framebuffer.cell_mod (fb : Framebuffer) (x y : Nat) : fb.cell (x % 64) (y % 32) = fb.cell x y := by
  simp [Framebuffer.cell]

end Sys2Proof.Machine
end

