-- ==== Sys2Proof/Laws/Memory.lean ====
section
/-! SUPPORT. The laws of memory: read after write, and that every operation keeps the canonical form. -/

namespace Sys2Proof.Machine

/-! ### lookup after insert and erase -/

theorem Memory.lookup_insert_self (m : Memory) (a : Nat) (b : Byte) : (Memory.insert a b m).lookup a = some b := by
  induction m with
  | nil => simp [Memory.insert, Memory.lookup]
  | cons c m ih =>
    obtain ⟨k, d⟩ := c
    unfold Memory.insert
    split
    · simp [Memory.lookup]
    · split
      · simp [Memory.lookup]
      · next h => simp [Memory.lookup, Ne.symm h, ih]

theorem Memory.lookup_insert_ne (m : Memory) {a q : Nat} (b : Byte) (h : q ≠ a) :
    (Memory.insert a b m).lookup q = m.lookup q := by
  induction m with
  | nil => simp [Memory.insert, Memory.lookup, Ne.symm h]
  | cons c m ih =>
    obtain ⟨k, d⟩ := c
    unfold Memory.insert
    split
    · simp [Memory.lookup, Ne.symm h]
    · split
      · next e => subst e; simp [Memory.lookup, Ne.symm h]
      · simp [Memory.lookup, ih]

theorem Memory.lookup_erase_self (m : Memory) (a : Nat) : (Memory.erase a m).lookup a = none := by
  induction m with
  | nil => rfl
  | cons c m ih =>
    obtain ⟨k, d⟩ := c
    unfold Memory.erase
    split
    · exact ih
    · next h => simp [Memory.lookup, h, ih]

theorem Memory.lookup_erase_ne (m : Memory) {a q : Nat} (h : q ≠ a) : (Memory.erase a m).lookup q = m.lookup q := by
  induction m with
  | nil => rfl
  | cons c m ih =>
    obtain ⟨k, d⟩ := c
    unfold Memory.erase
    split
    · next e => subst e; simp [Memory.lookup, Ne.symm h, ih]
    · simp [Memory.lookup, ih]

/-! ### read after write -/

@[simp] theorem Memory.read_nil (a : Nat) : Memory.read [] a = Memory.unlisted a := rfl

@[simp] theorem Memory.read_write_self (m : Memory) (a : Nat) (b : Byte) : (m.write a b).read a = b := by
  unfold Memory.write Memory.read
  split
  · next h => simp [Memory.lookup_erase_self, h]
  · simp [Memory.lookup_insert_self]

theorem Memory.read_write_ne (m : Memory) {a q : Nat} (b : Byte) (h : q ≠ a) : (m.write a b).read q = m.read q := by
  unfold Memory.write Memory.read
  split
  · rw [Memory.lookup_erase_ne m h]
  · rw [Memory.lookup_insert_ne m b h]

/-! ### the canonical form -/

theorem Memory.wfFrom_mono {m : Memory} {lo lo' : Nat} (h : lo' ≤ lo) (hm : m.wfFrom lo = true) :
    m.wfFrom lo' = true := by
  cases m with
  | nil => rfl
  | cons c m =>
    obtain ⟨k, d⟩ := c
    simp only [Memory.wfFrom, Bool.and_eq_true, decide_eq_true_eq] at hm ⊢
    exact ⟨⟨⟨by omega, hm.1.1.2⟩, hm.1.2⟩, hm.2⟩

theorem Memory.wfFrom_erase (m : Memory) (a : Nat) : ∀ lo, m.wfFrom lo = true → (Memory.erase a m).wfFrom lo = true := by
  induction m with
  | nil => intro lo _; rfl
  | cons c m ih =>
    obtain ⟨k, d⟩ := c
    intro lo h
    simp only [Memory.wfFrom, Bool.and_eq_true, decide_eq_true_eq] at h
    unfold Memory.erase
    split
    · exact ih lo (Memory.wfFrom_mono (by omega) h.2)
    · simp only [Memory.wfFrom, Bool.and_eq_true, decide_eq_true_eq]
      exact ⟨h.1, ih (k + 1) h.2⟩

theorem Memory.wfFrom_insert (m : Memory) {a : Nat} {b : Byte} (ha : a < 4096) (hb : b ≠ Memory.unlisted a) :
    ∀ lo, lo ≤ a → m.wfFrom lo = true → (Memory.insert a b m).wfFrom lo = true := by
  have hb' : (b != Memory.unlisted a) = true := by simpa using hb
  induction m with
  | nil =>
    intro lo hlo _
    simp [Memory.insert, Memory.wfFrom, hlo, ha, hb]
  | cons c m ih =>
    obtain ⟨k, d⟩ := c
    intro lo hlo h
    simp only [Memory.wfFrom, Bool.and_eq_true, decide_eq_true_eq] at h
    unfold Memory.insert
    split
    · next hak =>
      simp only [Memory.wfFrom, Bool.and_eq_true, decide_eq_true_eq]
      exact ⟨⟨⟨hlo, ha⟩, hb'⟩, ⟨⟨by omega, h.1.1.2⟩, h.1.2⟩, h.2⟩
    · split
      · next e =>
        subst e
        simp only [Memory.wfFrom, Bool.and_eq_true, decide_eq_true_eq]
        exact ⟨⟨⟨hlo, ha⟩, hb'⟩, h.2⟩
      · simp only [Memory.wfFrom, Bool.and_eq_true, decide_eq_true_eq]
        exact ⟨h.1, ih (k + 1) (by omega) h.2⟩

theorem Memory.wf_write {m : Memory} {a : Nat} (b : Byte) (ha : a < 4096) (h : m.wf = true) : (m.write a b).wf = true := by
  unfold Memory.write Memory.wf
  split
  · exact Memory.wfFrom_erase m a 0 h
  · next hb => exact Memory.wfFrom_insert m ha hb 0 (Nat.zero_le a) h

/-- Canonical memories list nothing below their start. -/
theorem Memory.lookup_below {m : Memory} {lo q : Nat} (h : m.wfFrom lo = true) (hq : q < lo) : m.lookup q = none := by
  induction m generalizing lo with
  | nil => rfl
  | cons c m ih =>
    obtain ⟨k, d⟩ := c
    simp only [Memory.wfFrom, Bool.and_eq_true, decide_eq_true_eq] at h
    have hk : k ≠ q := by omega
    simp only [Memory.lookup, hk, if_false]
    exact ih h.2 (by omega)

theorem State.wf_memWrite {s : State} (a : Nat) (b : Byte) (h : s.mem.wf = true) : (s.memWrite a b).mem.wf = true :=
  Memory.wf_write b (Nat.mod_lt a (by decide)) h

theorem State.wf_storeBytes {s : State} (a : Nat) (bs : List Byte) (h : s.mem.wf = true) :
    (s.storeBytes a bs).mem.wf = true := by
  induction bs generalizing s a with
  | nil => exact h
  | cons b bs ih => exact ih (a + 1) (State.wf_memWrite a b h)

/-! ### data accesses -/

theorem State.memRead_mod (s : State) (a : Nat) : s.memRead (a % 4096) = s.memRead a := by
  simp [State.memRead]

theorem State.memRead_memWrite_self (s : State) {a q : Nat} (b : Byte) (h : q % 4096 = a % 4096) :
    (s.memWrite a b).memRead q = b := by
  simp [State.memRead, State.memWrite, h]

theorem State.memRead_memWrite_ne (s : State) {a q : Nat} (b : Byte) (h : q % 4096 ≠ a % 4096) :
    (s.memWrite a b).memRead q = s.memRead q := by
  simp [State.memRead, State.memWrite, Memory.read_write_ne _ b h]

/-- A store leaves every byte outside the stored ones alone. -/
theorem State.memRead_storeBytes_outside (s : State) (a q : Nat) (bs : List Byte)
    (h : ∀ r, r < bs.length → q % 4096 ≠ (a + r) % 4096) : (s.storeBytes a bs).memRead q = s.memRead q := by
  induction bs generalizing s a with
  | nil => rfl
  | cons b bs ih =>
    rw [State.storeBytes, ih]
    · exact State.memRead_memWrite_ne s b (by simpa using h 0 (by simp))
    · intro r hr
      have := h (r + 1) (by simpa using hr)
      rwa [show a + 1 + r = a + (r + 1) by omega]

/-- A store of at most 4096 bytes is read back byte for byte. -/
theorem State.memRead_storeBytes (s : State) (a : Nat) (bs : List Byte) (hlen : bs.length ≤ 4096) (r : Nat)
    (hr : r < bs.length) : (s.storeBytes a bs).memRead (a + r) = bs[r] := by
  induction bs generalizing s a r with
  | nil => simp at hr
  | cons b bs ih =>
    simp only [List.length_cons] at hlen hr
    cases r with
    | zero =>
      rw [State.storeBytes, State.memRead_storeBytes_outside]
      · simp [State.memRead_memWrite_self]
      · intro r hr'; omega
    | succ r =>
      rw [State.storeBytes, show a + (r + 1) = a + 1 + r by omega,
        ih (s.memWrite a b) (a + 1) (by omega) r (by omega)]
      rfl

theorem State.length_loadBytes (s : State) (a n : Nat) : (s.loadBytes a n).length = n := by
  simp [State.loadBytes]

theorem State.getElem_loadBytes (s : State) (a n r : Nat) (h : r < (s.loadBytes a n).length) :
    (s.loadBytes a n)[r] = s.memRead (a + r) := by
  simp [State.loadBytes]

theorem State.length_readRange (s : State) (x : Nibble) : (s.readRange x).length = x.toNat + 1 := by
  simp [State.readRange]

theorem State.getElem_readRange (s : State) (x : Nibble) (r : Nat) (h : r < (s.readRange x).length) :
    (s.readRange x)[r] = s.readV (BitVec.ofNat 4 r) := by
  simp [State.readRange]

end Sys2Proof.Machine
end

