-- ==== Sys2Proof/Laws/Display.lean ====
section
/-! SUPPORT. What drawing a pixel, a row and a whole sprite does to one cell and to the collision flag (42_draw_sprite.md
R141, R142). -/

namespace Sys2Proof.Machine

/-- How far right of the origin a column lies, going round the 64 columns. -/
def columnOffset (x0 px : Nat) : Nat := (px % 64 + 64 - x0 % 64) % 64

theorem columnOffset_eq_iff {x0 px c : Nat} (hc : c < 64) : columnOffset x0 px = c ↔ px % 64 = (x0 + c) % 64 := by
  unfold columnOffset; omega

/-- One pixel: a set bit flips its own cell and no other, and collides when the cell was on. -/
theorem drawPixel_cell (x0 y0 r : Nat) (row : Byte) (acc : Framebuffer × Bool) (c px py : Nat) (hc : c < 64) :
    (drawPixel x0 y0 r row acc c).1.cell px py =
      (acc.1.cell px py ^^ (spriteBit row c && decide (columnOffset x0 px = c) && decide (py % 32 = (y0 + r) % 32))) := by
  unfold drawPixel
  by_cases hb : spriteBit row c = true
  · rw [if_pos hb]
    by_cases hx : px % 64 = (x0 + c) % 64
    · by_cases hy : py % 32 = (y0 + r) % 32
      · have h1 := Framebuffer.cell_mod (acc.1.toggle (x0 + c) (y0 + r)) px py
        have h2 := Framebuffer.cell_mod (acc.1.toggle (x0 + c) (y0 + r)) (x0 + c) (y0 + r)
        have h3 := Framebuffer.cell_mod acc.1 px py
        have h4 := Framebuffer.cell_mod acc.1 (x0 + c) (y0 + r)
        simp only
        rw [← h1, hx, hy, h2, Framebuffer.cell_toggle_self, ← h3, hx, hy, h4]
        simp [hb, columnOffset_eq_iff hc, hx]
      · simp [Framebuffer.cell_toggle_ne acc.1 (.inr hy), hy]
    · simp [Framebuffer.cell_toggle_ne acc.1 (.inl hx), columnOffset_eq_iff hc, hx]
  · simp [hb]

theorem drawPixel_collision (x0 y0 r : Nat) (row : Byte) (acc : Framebuffer × Bool) (c : Nat) :
    (drawPixel x0 y0 r row acc c).2 = (acc.2 || (spriteBit row c && acc.1.cell (x0 + c) (y0 + r))) := by
  unfold drawPixel
  by_cases hb : spriteBit row c = true <;> simp [hb]

/-- The first `k` columns of a row. -/
theorem drawColumns_cell (x0 y0 r : Nat) (row : Byte) (acc : Framebuffer × Bool) (px py : Nat) :
    ∀ k, k ≤ 8 → ((List.range k).foldl (drawPixel x0 y0 r row) acc).1.cell px py =
      (acc.1.cell px py ^^ (decide (columnOffset x0 px < k) && spriteBit row (columnOffset x0 px) &&
        decide (py % 32 = (y0 + r) % 32))) := by
  intro k
  induction k with
  | zero => simp
  | succ k ih =>
    intro hk
    rw [List.range_succ, List.foldl_append, List.foldl_cons, List.foldl_nil,
      drawPixel_cell _ _ _ _ _ _ _ _ (by omega), ih (by omega)]
    by_cases he : columnOffset x0 px = k
    · simp [he]
    · have : (columnOffset x0 px < k + 1) ↔ (columnOffset x0 px < k) := by omega
      simp [he, this]

theorem drawColumns_collision (x0 y0 r : Nat) (row : Byte) (acc : Framebuffer × Bool) :
    ∀ k, k ≤ 8 → (((List.range k).foldl (drawPixel x0 y0 r row) acc).2 = true ↔
      acc.2 = true ∨ ∃ c, c < k ∧ spriteBit row c = true ∧ acc.1.cell (x0 + c) (y0 + r) = true) := by
  intro k
  induction k with
  | zero => simp
  | succ k ih =>
    intro hk
    have hoff : columnOffset x0 (x0 + k) = k := (columnOffset_eq_iff (by omega)).mpr rfl
    rw [List.range_succ, List.foldl_append, List.foldl_cons, List.foldl_nil, drawPixel_collision,
      drawColumns_cell _ _ _ _ _ _ _ _ (by omega), hoff]
    simp only [Bool.or_eq_true, Bool.and_eq_true, ih (by omega), Nat.lt_irrefl, decide_false, Bool.false_and,
      Bool.xor_false]
    constructor
    · rintro ((h | ⟨c, hc, h⟩) | h)
      · exact .inl h
      · exact .inr ⟨c, by omega, h⟩
      · exact .inr ⟨k, by omega, h⟩
    · rintro (h | ⟨c, hc, h⟩)
      · exact .inl (.inl h)
      · by_cases e : c = k
        · subst e; exact .inr h
        · exact .inl (.inr ⟨c, by omega, h⟩)

/-- One row flips the cells of its set bits, each once. -/
theorem drawRow_cell (x0 y0 r : Nat) (row : Byte) (acc : Framebuffer × Bool) (px py : Nat) :
    (drawRow x0 y0 r row acc).1.cell px py =
      (acc.1.cell px py ^^ (decide (columnOffset x0 px < 8) && spriteBit row (columnOffset x0 px) &&
        decide (py % 32 = (y0 + r) % 32))) :=
  drawColumns_cell x0 y0 r row acc px py 8 (Nat.le_refl 8)

/-- One row collides when one of its set bits lands on a cell that was on. -/
theorem drawRow_collision (x0 y0 r : Nat) (row : Byte) (acc : Framebuffer × Bool) :
    (drawRow x0 y0 r row acc).2 = true ↔
      acc.2 = true ∨ ∃ c, c < 8 ∧ spriteBit row c = true ∧ acc.1.cell (x0 + c) (y0 + r) = true :=
  drawColumns_collision x0 y0 r row acc 8 (Nat.le_refl 8)

/-- Rows leave the cells of every other screen row alone. -/
theorem drawRows_cell_outside (x0 y0 : Nat) (rows : List Byte) (px py : Nat) :
    ∀ (r : Nat) (acc : Framebuffer × Bool), (∀ k, k < rows.length → py % 32 ≠ (y0 + (r + k)) % 32) →
      (drawRows x0 y0 r rows acc).1.cell px py = acc.1.cell px py := by
  induction rows with
  | nil => intro r acc _; rfl
  | cons row rows ih =>
    intro r acc h
    rw [drawRows, ih (r + 1)]
    · have h0 := h 0 (by simp)
      simp only [Nat.add_zero] at h0
      simp [drawRow_cell, h0]
    · intro k hk
      have := h (k + 1) (by simpa using hk)
      rwa [show r + 1 + k = r + (k + 1) by omega]

/-- At most 32 rows: the cell of row `k` is flipped by its own bit alone. -/
theorem drawRows_cell_row (x0 y0 : Nat) (rows : List Byte) (px py : Nat) :
    ∀ (r : Nat) (acc : Framebuffer × Bool), rows.length ≤ 32 → ∀ k, (hk : k < rows.length) →
      py % 32 = (y0 + (r + k)) % 32 →
      (drawRows x0 y0 r rows acc).1.cell px py =
        (acc.1.cell px py ^^ (decide (columnOffset x0 px < 8) && spriteBit rows[k] (columnOffset x0 px))) := by
  induction rows with
  | nil => intro r acc _ k hk; simp at hk
  | cons row rows ih =>
    intro r acc hlen k hk hy
    simp only [List.length_cons] at hlen hk
    cases k with
    | zero =>
      rw [drawRows, drawRows_cell_outside]
      · simp only [Nat.add_zero] at hy
        simp [drawRow_cell, hy]
      · intro k hk'; omega
    | succ k =>
      rw [drawRows, ih (r + 1) _ (by omega) k (by omega) (by rw [hy]; congr 1; omega)]
      have : ¬ py % 32 = (y0 + r) % 32 := by omega
      simp [drawRow_cell, this]

/-- At most 32 rows: a collision is a set bit that landed on a cell that was on before the sprite. -/
theorem drawRows_collision (x0 y0 : Nat) (rows : List Byte) :
    ∀ (r : Nat) (acc : Framebuffer × Bool), rows.length ≤ 32 →
      ((drawRows x0 y0 r rows acc).2 = true ↔
        acc.2 = true ∨ ∃ k, ∃ hk : k < rows.length, ∃ c, c < 8 ∧ spriteBit rows[k] c = true ∧
          acc.1.cell (x0 + c) (y0 + (r + k)) = true) := by
  induction rows with
  | nil => intro r acc _; simp [drawRows]
  | cons row rows ih =>
    intro r acc hlen
    simp only [List.length_cons] at hlen
    have hcell : ∀ k c, k < rows.length →
        (drawRow x0 y0 r row acc).1.cell (x0 + c) (y0 + (r + 1 + k)) = acc.1.cell (x0 + c) (y0 + (r + (k + 1))) := by
      intro k c hk
      have : ¬ (y0 + (r + (k + 1))) % 32 = (y0 + r) % 32 := by omega
      rw [show r + 1 + k = r + (k + 1) by omega]
      simp [drawRow_cell, this]
    rw [drawRows, ih (r + 1) _ (by omega), drawRow_collision]
    constructor
    · rintro ((h | ⟨c, hc, hb, hon⟩) | ⟨k, hk, c, hc, hb, hon⟩)
      · exact .inl h
      · exact .inr ⟨0, by simp, c, hc, hb, by simpa using hon⟩
      · exact .inr ⟨k + 1, by simpa using hk, c, hc, by simpa using hb, by rw [← hcell k c hk]; exact hon⟩
    · rintro (h | ⟨k, hk, c, hc, hb, hon⟩)
      · exact .inl (.inl h)
      · cases k with
        | zero => exact .inl (.inr ⟨c, hc, by simpa using hb, by simpa using hon⟩)
        | succ k =>
          have hk' : k < rows.length := by simpa using hk
          exact .inr ⟨k, hk', c, hc, by simpa using hb, by rw [hcell k c hk']; exact hon⟩

theorem State.length_spriteRows (s : State) (n : Nibble) : (s.spriteRows n).length = n.toNat :=
  State.length_loadBytes s _ _

theorem State.getElem_spriteRows (s : State) (n : Nibble) (r : Nat) (h : r < (s.spriteRows n).length) :
    (s.spriteRows n)[r] = s.memRead (s.atI r) := by
  simp [State.spriteRows, State.loadBytes, State.atI]

end Sys2Proof.Machine
end

