-- ==== Sys2Proof/Laws/Operands.lean ====
section
/-! SUPPORT. What the operand forms give, said once. -/

namespace Sys2Proof.Machine

theorem State.toNat_addrWord (nnn : Addr) : (addrWord nnn).toNat = nnn.toNat := by
  simp [addrWord]; omega

theorem State.toNat_indexPlus (s : State) (x : Nibble) :
    (s.indexPlus x).toNat = (s.i.toNat + (s.readV x).toNat) % 4096 := by
  simp [State.indexPlus]; omega

theorem State.toNat_glyphAddress (s : State) (x : Nibble) : (s.glyphAddress x).toNat = 80 + 5 * (s.readV x).toNat := by
  simp [State.glyphAddress]; omega

theorem State.toNat_indexedTarget (s : State) (nnn : Addr) :
    (s.indexedTarget nnn).toNat = nnn.toNat + (s.readV 0x0#4).toNat := by
  simp [State.indexedTarget, addrWord]; omega

theorem State.keyIndex_eq_none {s : State} {x : Nibble} : s.keyIndex x = none ↔ 0xF < (s.readV x).toNat := by
  unfold State.keyIndex
  split <;> simp_all

theorem State.keyIndex_eq_some {s : State} {x k : Nibble} : s.keyIndex x = some k ↔ (s.readV x).toNat = k.toNat := by
  have hk := k.isLt
  unfold State.keyIndex
  split
  · simp; omega
  · simp only [Option.some.injEq]
    constructor
    · intro h; rw [← h]; simp; omega
    · intro h; apply BitVec.eq_of_toNat_eq; simp; omega

/-- No key is found exactly when none is down. -/
theorem State.lowestKeyDown_eq_none {s : State} : s.lowestKeyDown = none ↔ ∀ k : Nibble, s.keyDown k = false := by
  have hall : ∀ k : Nibble, k ∈ keyNumbers := by decide
  unfold State.lowestKeyDown
  rw [List.find?_eq_none]
  constructor
  · intro h k; simpa using h k (hall k)
  · intro h k _; simp [h k]

/-- The key found is down, and every lower one is up. -/
theorem State.lowestKeyDown_eq_some {s : State} {k : Nibble} :
    s.lowestKeyDown = some k ↔ s.keyDown k = true ∧ ∀ j : Nibble, j.toNat < k.toNat → s.keyDown j = false := by
  have hsorted : keyNumbers.Pairwise (fun a b => a.toNat < b.toNat) := by decide
  have hall : ∀ k : Nibble, k ∈ keyNumbers := by decide
  have found : ∀ {k : Nibble}, s.lowestKeyDown = some k →
      s.keyDown k = true ∧ ∀ j : Nibble, j.toNat < k.toNat → s.keyDown j = false := by
    intro k h
    obtain ⟨hk, as, bs, hsplit, hbefore⟩ := List.find?_eq_some_iff_append.mp h
    refine ⟨hk, fun j hj => ?_⟩
    have hj' := hall j
    rw [hsplit] at hj' hsorted
    rcases List.mem_append.mp hj' with hm | hm
    · simpa using hbefore j hm
    · rcases List.mem_cons.mp hm with e | hm
      · subst e; omega
      · have := (List.pairwise_cons.mp (List.pairwise_append.mp hsorted).2.1).1 j hm
        omega
  refine ⟨found, fun ⟨hk, hlow⟩ => ?_⟩
  cases h : s.lowestKeyDown with
  | none => rw [State.lowestKeyDown_eq_none.mp h k] at hk; cases hk
  | some j =>
    obtain ⟨hj, hjlow⟩ := found h
    rcases Nat.lt_trichotomy j.toNat k.toNat with hlt | heq | hgt
    · rw [hlow j hlt] at hj; cases hj
    · rw [BitVec.eq_of_toNat_eq heq]
    · rw [hjlow k hgt] at hk; cases hk

end Sys2Proof.Machine
end

