-- ==== Sys2Proof/Laws/Exec.lean ====
section
/-! SUPPORT. When an instruction ends in an error, said once for all of them; and that no instruction is refused. -/

namespace Sys2Proof.Machine

/-- Every error an instruction can end in, with its condition. -/
theorem exec_eq_fault {i : Instr} {s : State} {f : Fault} (h : exec i s = .fault f) :
    (i = .ret ∧ s.sp.val = 0 ∧ f = .stackUnderflow s.fetchPc (encode i)) ∨
    (∃ nnn, i = .call nnn ∧ s.sp.val = 16 ∧ f = .stackOverflow s.fetchPc (encode i)) ∨
    (∃ x, (i = .skp x ∨ i = .sknp x) ∧ 0xF < (s.readV x).toNat ∧
      f = .invalidKeyIndex s.fetchPc (encode i) (s.readV x)) := by
  cases i
  case ret =>
    simp only [exec, execRet] at h
    split at h
    · next hp => cases h; exact .inl ⟨rfl, State.pop_eq_none.mp hp, rfl⟩
    · cases h
  case call nnn =>
    simp only [exec, execCall] at h
    split at h
    · next hp => cases h; exact .inr (.inl ⟨nnn, rfl, State.push_eq_none.mp hp, rfl⟩)
    · cases h
  case skp x =>
    simp only [exec, execSkp] at h
    split at h
    · next hk => cases h; exact .inr (.inr ⟨x, .inl rfl, State.keyIndex_eq_none.mp hk, rfl⟩)
    · cases h
  case sknp x =>
    simp only [exec, execSknp] at h
    split at h
    · next hk => cases h; exact .inr (.inr ⟨x, .inr rfl, State.keyIndex_eq_none.mp hk, rfl⟩)
    · cases h
  case ldVxK x =>
    simp only [exec, execLdVxK] at h
    split at h <;> cases h
  all_goals cases h

/-- No instruction is refused: every one is modelled. -/
theorem exec_ne_refused (i : Instr) (s : State) (r : Refusal) : exec i s ≠ .refused r := by
  intro h
  cases i
  case ret => simp only [exec, execRet] at h; split at h <;> cases h
  case call nnn => simp only [exec, execCall] at h; split at h <;> cases h
  case skp x => simp only [exec, execSkp] at h; split at h <;> cases h
  case sknp x => simp only [exec, execSknp] at h; split at h <;> cases h
  case ldVxK x => simp only [exec, execLdVxK] at h; split at h <;> cases h
  all_goals cases h

/-- Every instruction keeps memory canonical. -/
theorem wf_exec {i : Instr} {s t : State} (hm : s.mem.wf = true) (h : exec i s = .next t) : t.mem.wf = true := by
  cases i
  case ret =>
    simp only [exec, execRet] at h
    split at h
    · cases h
    · next hp => cases h; obtain ⟨_, _, rfl⟩ := State.pop_eq_some hp; exact hm
  case call nnn =>
    simp only [exec, execCall] at h
    split at h
    · cases h
    · next hp => cases h; obtain ⟨_, rfl⟩ := State.push_eq_some hp; exact hm
  case skp x =>
    simp only [exec, execSkp] at h
    split at h
    · cases h
    · cases h; simpa using hm
  case sknp x =>
    simp only [exec, execSknp] at h
    split at h
    · cases h
    · cases h; simpa using hm
  case ldVxK x =>
    simp only [exec, execLdVxK] at h
    split at h <;> cases h <;> exact hm
  case ldB x => cases h; exact State.wf_storeBytes _ _ hm
  case ldMemVx x => cases h; exact State.wf_storeBytes _ _ hm
  case seImm | sneImm | seReg | sneReg => cases h; simpa using hm
  all_goals cases h; exact hm

end Sys2Proof.Machine
end

