-- ==== Sys2Proof/Laws/Frames.lean ====
section
/-! SUPPORT. What each named update leaves unchanged, as `ChangesOnly`, and how such facts are widened and joined. -/

namespace Sys2Proof.Machine

theorem ChangesOnly.mono {A B : Part → Prop} {s t : State} (h : ChangesOnly A s t) (hAB : ∀ p, A p → B p) :
    ChangesOnly B s t :=
  fun p hp => h p (fun ha => hp (hAB p ha))

theorem ChangesOnly.refl (A : Part → Prop) (s : State) : ChangesOnly A s s := by
  intro p _; cases p <;> rfl

theorem ChangesOnly.trans {A : Part → Prop} {s t u : State} (h : ChangesOnly A s t) (h' : ChangesOnly A t u) :
    ChangesOnly A s u := by
  intro p hp
  have h1 := h p hp
  have h2 := h' p hp
  cases p <;> exact Eq.trans h2 h1

theorem changesOnly_writeV (s : State) (x : Nibble) (b : Byte) : ChangesOnly (fun p => p = .v x) s (s.writeV x b) := by
  intro p hp
  cases p with
  | v r => exact State.readV_writeV_ne s b (fun e => hp (by rw [e]))
  | _ => rfl

theorem changesOnly_writeFlagThenResult (s : State) (x : Nibble) (f : Bool) (b : Byte) :
    ChangesOnly (fun p => p = .v x ∨ p = .v 0xF#4) s (s.writeFlagThenResult x f b) :=
  ((changesOnly_writeV s 0xF#4 (flagByte f)).mono (fun _ h => .inr h)).trans
    ((changesOnly_writeV _ x b).mono (fun _ h => .inl h))

theorem changesOnly_writeRange (s : State) (x : Nibble) (bs : List Byte) :
    ChangesOnly (fun p => ∃ r : Nibble, r.toNat ≤ x.toNat ∧ p = .v r) s (s.writeRange x bs) := by
  intro p hp
  cases p with
  | v r =>
    have : ¬ r.toNat ≤ x.toNat := fun h => hp ⟨r, h, rfl⟩
    show (s.writeRange x bs).readV r = s.readV r
    rw [State.readV_writeRange, if_neg this]
  | slot j => simp [Part.same]
  | key k => simp [Part.same, State.keyDown]
  | _ => simp [Part.same]

theorem changesOnly_setI (s : State) (w : Word) : ChangesOnly (fun p => p = .i) s (s.setI w) := by
  intro p hp
  cases p with
  | i => exact absurd rfl hp
  | _ => rfl

theorem changesOnly_setDt (s : State) (b : Byte) : ChangesOnly (fun p => p = .dt) s (s.setDt b) := by
  intro p hp
  cases p with
  | dt => exact absurd rfl hp
  | _ => rfl

theorem changesOnly_setSt (s : State) (b : Byte) : ChangesOnly (fun p => p = .st) s (s.setSt b) := by
  intro p hp
  cases p with
  | st => exact absurd rfl hp
  | _ => rfl

theorem changesOnly_jump (s : State) (w : Word) : ChangesOnly (fun p => p = .pc) s (s.jump w) := by
  intro p hp
  cases p with
  | pc => exact absurd rfl hp
  | _ => rfl

theorem changesOnly_skipIf (s : State) (c : Bool) : ChangesOnly (fun p => p = .pc) s (s.skipIf c) := by
  cases c
  · exact ChangesOnly.refl _ s
  · exact changesOnly_jump s _

theorem changesOnly_nextDraw (s : State) : ChangesOnly (fun p => p = .draws) s s.nextDraw := by
  intro p hp
  cases p with
  | draws => exact absurd rfl hp
  | _ => rfl

theorem changesOnly_setFb (s : State) (f : Framebuffer) : ChangesOnly (fun p => ∃ x y, p = .cell x y) s (s.setFb f) := by
  intro p hp
  cases p with
  | cell x y => exact absurd ⟨x, y, rfl⟩ hp
  | _ => rfl

theorem changesOnly_storeBytes (s : State) (a : Nat) (bs : List Byte) :
    ChangesOnly (storedAt a bs.length) s (s.storeBytes a bs) := by
  intro p hp
  cases p with
  | byte q =>
    refine State.memRead_storeBytes_outside s a q.toNat bs (fun r hr e => hp ⟨q, rfl, r, hr, ?_⟩)
    rw [← e]; exact Nat.mod_eq_of_lt q.isLt
  | slot j => simp [Part.same]
  | key k => simp [Part.same, State.keyDown]
  | _ => simp [Part.same]

theorem changesOnly_push {s t : State} {w : Word} (h : s.push w = some t) :
    ChangesOnly (fun p => p = .sp ∨ ∃ j : Fin 16, j.val = s.sp.val ∧ p = .slot j) s t := by
  obtain ⟨hlt, rfl⟩ := State.push_eq_some h
  intro p hp
  cases p with
  | sp => exact absurd (.inl rfl) hp
  | slot j =>
    have hne : s.sp.val ≠ j.val := fun e => hp (.inr ⟨j, e.symm, rfl⟩)
    simp [Part.same, Vector.getElem_set_ne, hne]
  | _ => rfl

theorem changesOnly_pop {s t : State} {w : Word} (h : s.pop = some (w, t)) : ChangesOnly (fun p => p = .sp) s t := by
  obtain ⟨_, _, rfl⟩ := State.pop_eq_some h
  intro p hp
  cases p with
  | sp => exact absurd rfl hp
  | _ => rfl

end Sys2Proof.Machine
end

