-- ==== Sys2Proof/Laws/PerInstr.lean ====
section
/-! SUPPORT. The family OneRow: the word of every instruction is covered by exactly one row of the opcode map
(30_encoding.md R74), and it is the row of the instruction's own mnemonic. -/

namespace Sys2Proof

theorem covers_iff_fields (r : OpcodeRow) (w : Word) :
    r.covers w = (r.n1 == opF w && nibbleFits r.n2 (opX w) && nibbleFits r.n3 (opY w) && nibbleFits r.n4 (opN w)) := rfl

@[simp] theorem opY_encodeXK (f x : Nibble) (kk : Byte) : opY (encodeXK f x kk) = kk.extractLsb' 4 4 := by
  apply BitVec.eq_of_toNat_eq
  rw [toNat_opY, toNat_encodeXK]
  simp [Nat.shiftRight_eq_div_pow]; omega

@[simp] theorem opN_encodeXK (f x : Nibble) (kk : Byte) : opN (encodeXK f x kk) = kk.extractLsb' 0 4 := by
  apply BitVec.eq_of_toNat_eq
  rw [toNat_opN, toNat_encodeXK]
  simp; omega

namespace Laws.OneRow

/-- The mnemonics of the rows that cover the instruction's word are its own and no other. -/
def Statement (i : Instr) : Prop :=
  (opcodeTable.filter (fun r => r.covers (encode i))).map (fun r => r.mnemonic) = [i.mnemonic]

theorem cls : Statement .cls := by
  unfold Statement; decide

theorem ret : Statement .ret := by
  unfold Statement; decide

theorem jp (nnn : Addr) : Statement (.jp nnn) := by
  simp [Statement, opcodeTable, opcodeRows0to7, opcodeRows8, opcodeRows9toE, opcodeRowsF, covers_iff_fields, encode,
    nibbleFits, Instr.mnemonic]

theorem call (nnn : Addr) : Statement (.call nnn) := by
  simp [Statement, opcodeTable, opcodeRows0to7, opcodeRows8, opcodeRows9toE, opcodeRowsF, covers_iff_fields, encode,
    nibbleFits, Instr.mnemonic]

theorem seImm (x : Nibble) (kk : Byte) : Statement (.seImm x kk) := by
  simp [Statement, opcodeTable, opcodeRows0to7, opcodeRows8, opcodeRows9toE, opcodeRowsF, covers_iff_fields, encode,
    nibbleFits, Instr.mnemonic]

theorem sneImm (x : Nibble) (kk : Byte) : Statement (.sneImm x kk) := by
  simp [Statement, opcodeTable, opcodeRows0to7, opcodeRows8, opcodeRows9toE, opcodeRowsF, covers_iff_fields, encode,
    nibbleFits, Instr.mnemonic]

theorem seReg (x y : Nibble) : Statement (.seReg x y) := by
  simp [Statement, opcodeTable, opcodeRows0to7, opcodeRows8, opcodeRows9toE, opcodeRowsF, covers_iff_fields, encode,
    nibbleFits, Instr.mnemonic]

theorem ldImm (x : Nibble) (kk : Byte) : Statement (.ldImm x kk) := by
  simp [Statement, opcodeTable, opcodeRows0to7, opcodeRows8, opcodeRows9toE, opcodeRowsF, covers_iff_fields, encode,
    nibbleFits, Instr.mnemonic]

theorem addImm (x : Nibble) (kk : Byte) : Statement (.addImm x kk) := by
  simp [Statement, opcodeTable, opcodeRows0to7, opcodeRows8, opcodeRows9toE, opcodeRowsF, covers_iff_fields, encode,
    nibbleFits, Instr.mnemonic]

theorem ldReg (x y : Nibble) : Statement (.ldReg x y) := by
  simp [Statement, opcodeTable, opcodeRows0to7, opcodeRows8, opcodeRows9toE, opcodeRowsF, covers_iff_fields, encode,
    nibbleFits, Instr.mnemonic]

theorem orReg (x y : Nibble) : Statement (.orReg x y) := by
  simp [Statement, opcodeTable, opcodeRows0to7, opcodeRows8, opcodeRows9toE, opcodeRowsF, covers_iff_fields, encode,
    nibbleFits, Instr.mnemonic]

theorem andReg (x y : Nibble) : Statement (.andReg x y) := by
  simp [Statement, opcodeTable, opcodeRows0to7, opcodeRows8, opcodeRows9toE, opcodeRowsF, covers_iff_fields, encode,
    nibbleFits, Instr.mnemonic]

theorem xorReg (x y : Nibble) : Statement (.xorReg x y) := by
  simp [Statement, opcodeTable, opcodeRows0to7, opcodeRows8, opcodeRows9toE, opcodeRowsF, covers_iff_fields, encode,
    nibbleFits, Instr.mnemonic]

theorem addReg (x y : Nibble) : Statement (.addReg x y) := by
  simp [Statement, opcodeTable, opcodeRows0to7, opcodeRows8, opcodeRows9toE, opcodeRowsF, covers_iff_fields, encode,
    nibbleFits, Instr.mnemonic]

theorem sub (x y : Nibble) : Statement (.sub x y) := by
  simp [Statement, opcodeTable, opcodeRows0to7, opcodeRows8, opcodeRows9toE, opcodeRowsF, covers_iff_fields, encode,
    nibbleFits, Instr.mnemonic]

theorem shr (x y : Nibble) : Statement (.shr x y) := by
  simp [Statement, opcodeTable, opcodeRows0to7, opcodeRows8, opcodeRows9toE, opcodeRowsF, covers_iff_fields, encode,
    nibbleFits, Instr.mnemonic]

theorem subn (x y : Nibble) : Statement (.subn x y) := by
  simp [Statement, opcodeTable, opcodeRows0to7, opcodeRows8, opcodeRows9toE, opcodeRowsF, covers_iff_fields, encode,
    nibbleFits, Instr.mnemonic]

theorem shl (x y : Nibble) : Statement (.shl x y) := by
  simp [Statement, opcodeTable, opcodeRows0to7, opcodeRows8, opcodeRows9toE, opcodeRowsF, covers_iff_fields, encode,
    nibbleFits, Instr.mnemonic]

theorem sneReg (x y : Nibble) : Statement (.sneReg x y) := by
  simp [Statement, opcodeTable, opcodeRows0to7, opcodeRows8, opcodeRows9toE, opcodeRowsF, covers_iff_fields, encode,
    nibbleFits, Instr.mnemonic]

theorem ldI (nnn : Addr) : Statement (.ldI nnn) := by
  simp [Statement, opcodeTable, opcodeRows0to7, opcodeRows8, opcodeRows9toE, opcodeRowsF, covers_iff_fields, encode,
    nibbleFits, Instr.mnemonic]

theorem jpV0 (nnn : Addr) : Statement (.jpV0 nnn) := by
  simp [Statement, opcodeTable, opcodeRows0to7, opcodeRows8, opcodeRows9toE, opcodeRowsF, covers_iff_fields, encode,
    nibbleFits, Instr.mnemonic]

theorem rnd (x : Nibble) (kk : Byte) : Statement (.rnd x kk) := by
  simp [Statement, opcodeTable, opcodeRows0to7, opcodeRows8, opcodeRows9toE, opcodeRowsF, covers_iff_fields, encode,
    nibbleFits, Instr.mnemonic]

theorem drw (x y n : Nibble) : Statement (.drw x y n) := by
  simp [Statement, opcodeTable, opcodeRows0to7, opcodeRows8, opcodeRows9toE, opcodeRowsF, covers_iff_fields, encode,
    nibbleFits, Instr.mnemonic]

theorem skp (x : Nibble) : Statement (.skp x) := by
  simp [Statement, opcodeTable, opcodeRows0to7, opcodeRows8, opcodeRows9toE, opcodeRowsF, covers_iff_fields, encode,
    nibbleFits, Instr.mnemonic]

theorem sknp (x : Nibble) : Statement (.sknp x) := by
  simp [Statement, opcodeTable, opcodeRows0to7, opcodeRows8, opcodeRows9toE, opcodeRowsF, covers_iff_fields, encode,
    nibbleFits, Instr.mnemonic]

theorem ldVxDt (x : Nibble) : Statement (.ldVxDt x) := by
  simp [Statement, opcodeTable, opcodeRows0to7, opcodeRows8, opcodeRows9toE, opcodeRowsF, covers_iff_fields, encode,
    nibbleFits, Instr.mnemonic]

theorem ldVxK (x : Nibble) : Statement (.ldVxK x) := by
  simp [Statement, opcodeTable, opcodeRows0to7, opcodeRows8, opcodeRows9toE, opcodeRowsF, covers_iff_fields, encode,
    nibbleFits, Instr.mnemonic]

theorem ldDtVx (x : Nibble) : Statement (.ldDtVx x) := by
  simp [Statement, opcodeTable, opcodeRows0to7, opcodeRows8, opcodeRows9toE, opcodeRowsF, covers_iff_fields, encode,
    nibbleFits, Instr.mnemonic]

theorem ldStVx (x : Nibble) : Statement (.ldStVx x) := by
  simp [Statement, opcodeTable, opcodeRows0to7, opcodeRows8, opcodeRows9toE, opcodeRowsF, covers_iff_fields, encode,
    nibbleFits, Instr.mnemonic]

theorem addI (x : Nibble) : Statement (.addI x) := by
  simp [Statement, opcodeTable, opcodeRows0to7, opcodeRows8, opcodeRows9toE, opcodeRowsF, covers_iff_fields, encode,
    nibbleFits, Instr.mnemonic]

theorem ldF (x : Nibble) : Statement (.ldF x) := by
  simp [Statement, opcodeTable, opcodeRows0to7, opcodeRows8, opcodeRows9toE, opcodeRowsF, covers_iff_fields, encode,
    nibbleFits, Instr.mnemonic]

theorem ldB (x : Nibble) : Statement (.ldB x) := by
  simp [Statement, opcodeTable, opcodeRows0to7, opcodeRows8, opcodeRows9toE, opcodeRowsF, covers_iff_fields, encode,
    nibbleFits, Instr.mnemonic]

theorem ldMemVx (x : Nibble) : Statement (.ldMemVx x) := by
  simp [Statement, opcodeTable, opcodeRows0to7, opcodeRows8, opcodeRows9toE, opcodeRowsF, covers_iff_fields, encode,
    nibbleFits, Instr.mnemonic]

theorem ldVxMem (x : Nibble) : Statement (.ldVxMem x) := by
  simp [Statement, opcodeTable, opcodeRows0to7, opcodeRows8, opcodeRows9toE, opcodeRowsF, covers_iff_fields, encode,
    nibbleFits, Instr.mnemonic]

end Laws.OneRow

/-- Every instruction's word is covered by its own row and no other. -/
theorem oneRow (i : Instr) : Laws.OneRow.Statement i := by
  cases i with
  | cls => exact Laws.OneRow.cls
  | ret => exact Laws.OneRow.ret
  | jp nnn => exact Laws.OneRow.jp nnn
  | call nnn => exact Laws.OneRow.call nnn
  | seImm x kk => exact Laws.OneRow.seImm x kk
  | sneImm x kk => exact Laws.OneRow.sneImm x kk
  | seReg x y => exact Laws.OneRow.seReg x y
  | ldImm x kk => exact Laws.OneRow.ldImm x kk
  | addImm x kk => exact Laws.OneRow.addImm x kk
  | ldReg x y => exact Laws.OneRow.ldReg x y
  | orReg x y => exact Laws.OneRow.orReg x y
  | andReg x y => exact Laws.OneRow.andReg x y
  | xorReg x y => exact Laws.OneRow.xorReg x y
  | addReg x y => exact Laws.OneRow.addReg x y
  | sub x y => exact Laws.OneRow.sub x y
  | shr x y => exact Laws.OneRow.shr x y
  | subn x y => exact Laws.OneRow.subn x y
  | shl x y => exact Laws.OneRow.shl x y
  | sneReg x y => exact Laws.OneRow.sneReg x y
  | ldI nnn => exact Laws.OneRow.ldI nnn
  | jpV0 nnn => exact Laws.OneRow.jpV0 nnn
  | rnd x kk => exact Laws.OneRow.rnd x kk
  | drw x y n => exact Laws.OneRow.drw x y n
  | skp x => exact Laws.OneRow.skp x
  | sknp x => exact Laws.OneRow.sknp x
  | ldVxDt x => exact Laws.OneRow.ldVxDt x
  | ldVxK x => exact Laws.OneRow.ldVxK x
  | ldDtVx x => exact Laws.OneRow.ldDtVx x
  | ldStVx x => exact Laws.OneRow.ldStVx x
  | addI x => exact Laws.OneRow.addI x
  | ldF x => exact Laws.OneRow.ldF x
  | ldB x => exact Laws.OneRow.ldB x
  | ldMemVx x => exact Laws.OneRow.ldMemVx x
  | ldVxMem x => exact Laws.OneRow.ldVxMem x

end Sys2Proof
end

