-- ==== Sys2Proof/Laws/Step.lean ====
section
/-! SUPPORT. What fetch, decode and step can do, said once; and that a raised error, and a list of host operations, do what
they say. -/

namespace Sys2Proof.Machine

@[simp] theorem fetchPc_advance (s : State) : s.advance.fetchPc = s.pc := by
  simp [State.fetchPc]

theorem fetch_eq_ok {s : State} {op : Word} :
    s.fetch = .ok op ↔ s.pc.toNat < 0xFFF ∧ op = s.opcodeAtPc := by
  unfold State.fetch
  split
  · simp; omega
  · simp only [Except.ok.injEq]
    constructor
    · intro h; exact ⟨by omega, h.symm⟩
    · intro h; exact h.2.symm

theorem fetch_eq_error {s : State} {f : Fault} :
    s.fetch = .error f ↔ 0xFFF ≤ s.pc.toNat ∧ f = .outOfBoundsFetch s.pc := by
  unfold State.fetch
  split
  · simp only [Except.error.injEq]
    constructor
    · intro h; exact ⟨by omega, h.symm⟩
    · intro h; exact h.2.symm
  · simp; omega

theorem decodeAt_eq_ok {op pc : Word} {i : Instr} : decodeAt op pc = .ok i ↔ decodeWord op = .ok i := by
  unfold decodeAt
  cases decodeWord op with
  | ok i => simp
  | error e => simp

theorem decodeAt_eq_error {op pc : Word} {f : Fault} :
    decodeAt op pc = .error f ↔ (∃ e, decodeWord op = .error e) ∧ f = .unknownOpcode op pc := by
  unfold decodeAt
  cases decodeWord op with
  | ok i => simp
  | error e => simp [eq_comm]

/-- Everything a step can do: an error of fetch, an error of decode, or the decoded instruction on the advanced state. -/
theorem step_cases (s : State) :
    (0xFFF ≤ s.pc.toNat ∧ step s = .fault (.outOfBoundsFetch s.pc)) ∨
    (s.pc.toNat < 0xFFF ∧ (∃ e, decodeWord s.opcodeAtPc = .error e) ∧
      step s = .fault (.unknownOpcode s.opcodeAtPc s.pc)) ∨
    (s.pc.toNat < 0xFFF ∧ ∃ i, decodeWord s.opcodeAtPc = .ok i ∧ step s = exec i s.advance) := by
  unfold step
  cases hf : s.fetch with
  | error f =>
    obtain ⟨h, rfl⟩ := fetch_eq_error.mp hf
    exact .inl ⟨h, rfl⟩
  | ok op =>
    obtain ⟨h, rfl⟩ := fetch_eq_ok.mp hf
    refine .inr ?_
    cases hd : decodeAt s.opcodeAtPc s.pc with
    | error f =>
      obtain ⟨he, rfl⟩ := decodeAt_eq_error.mp hd
      exact .inl ⟨h, he, by simp [hd, raise]⟩
    | ok i => exact .inr ⟨h, i, decodeAt_eq_ok.mp hd, by simp [hd]⟩

/-- A step that completes ran an instruction. -/
theorem step_next {s t : State} (h : step s = .next t) :
    s.pc.toNat < 0xFFF ∧ ∃ i, decodeWord s.opcodeAtPc = .ok i ∧ exec i s.advance = .next t := by
  rcases step_cases s with ⟨_, e⟩ | ⟨_, _, e⟩ | ⟨hp, i, hi, e⟩
  · rw [e] at h; cases h
  · rw [e] at h; cases h
  · exact ⟨hp, i, hi, e ▸ h⟩

/-- The step runs the instruction that the two bytes at `pc` hold. -/
theorem step_of_decode {s : State} {i : Instr} (hp : s.pc.toNat < 0xFFF) (hi : decodeWord s.opcodeAtPc = .ok i) :
    step s = exec i s.advance := by
  rcases step_cases s with ⟨h, _⟩ | ⟨_, ⟨e, h⟩, _⟩ | ⟨_, j, hj, e⟩
  · omega
  · rw [hi] at h; cases h
  · rw [hi] at hj; cases hj; exact e

/-- The two bytes at `pc`, as a data read sees them. -/
theorem opcodeAtPc_eq {s : State} (hp : s.pc.toNat < 0xFFF) :
    s.opcodeAtPc = wordOfBytes (s.memRead s.pc.toNat) (s.memRead (s.pc.toNat + 1)) := by
  unfold State.opcodeAtPc State.memRead
  rw [Nat.mod_eq_of_lt (by simp; omega), Nat.mod_eq_of_lt (by simp; omega)]

/-- An opcode stored at `pc` is the one the next step fetches. -/
theorem opcodeAtPc_storeOpcodeAtPc {s : State} (w : Word) (hp : s.pc.toNat < 0xFFF) :
    (s.storeOpcodeAtPc w).opcodeAtPc = w := by
  have hn : ¬ 0xFFF < s.pc.toNat + 1 := by omega
  have h := State.memRead_storeBytes s s.pc.toNat [highByte w, lowByte w] (by simp)
  have h0 := h 0 (by simp)
  have h1 := h 1 (by simp)
  unfold State.storeOpcodeAtPc
  rw [if_neg hn, opcodeAtPc_eq (by simpa using hp)]
  simp only [State.storeBytes_pc]
  rw [h1]
  simp only [Nat.add_zero] at h0
  rw [h0]
  simp

/-- What an operation returns and leaves, by its outcome (00_scope.md R8). -/
theorem perform_of_next {font : Font} {op : HostOp} {s t : State} (h : op.apply font s = .next t) :
    op.perform font s = (t, .ok) := by
  unfold HostOp.perform; rw [h]

theorem perform_of_fault {font : Font} {op : HostOp} {s : State} {f : Fault} (h : op.apply font s = .fault f) :
    op.perform font s = (s, .err f) := by
  unfold HostOp.perform; rw [h]

end Sys2Proof.Machine
end

