-- ==== Sys2Proof/Laws/Words.lean ====
section
/-! SUPPORT. The words written from match bits and field positions (Safety.lean) are the encoder's layouts. -/

namespace Sys2Proof.Machine

theorem mul_pow_or_eq_add {a b k : Nat} (h : b < 2 ^ k) : a * 2 ^ k ||| b = a * 2 ^ k + b := by
  rw [← Nat.shiftLeft_eq, Nat.shiftLeft_add_eq_or_of_lt h]

theorem toNat_family (f : Nibble) : (f.setWidth 16 <<< 12).toNat = f.toNat * 2 ^ 12 := by
  have := f.isLt
  simp [Nat.shiftLeft_eq]; omega

theorem toNat_wordA (f : Nibble) (nnn : Addr) :
    (wordA (f.setWidth 16 <<< 12) nnn).toNat = f.toNat * 4096 + nnn.toNat := by
  have h := nnn.isLt
  unfold wordA
  rw [BitVec.toNat_or, toNat_family, show (nnn.setWidth 16).toNat = nnn.toNat by simp; omega]
  exact mul_pow_or_eq_add h

theorem toNat_wordX_family (f x : Nibble) :
    (wordX (f.setWidth 16 <<< 12) x).toNat = (f.toNat * 16 + x.toNat) * 2 ^ 8 := by
  have h := x.isLt
  unfold wordX
  rw [BitVec.toNat_or, toNat_family, show (x.setWidth 16 <<< 8).toNat = x.toNat * 256 by simp [Nat.shiftLeft_eq]; omega,
    mul_pow_or_eq_add (by omega)]
  omega

theorem encodeA_eq_wordA (f : Nibble) (nnn : Addr) : encodeA f nnn = wordA (f.setWidth 16 <<< 12) nnn := by
  apply BitVec.eq_of_toNat_eq
  rw [toNat_encodeA, toNat_wordA]

theorem encodeXK_eq_wordXK (f x : Nibble) (kk : Byte) : encodeXK f x kk = wordXK (f.setWidth 16 <<< 12) x kk := by
  apply BitVec.eq_of_toNat_eq
  have h := kk.isLt
  unfold wordXK
  rw [toNat_encodeXK, BitVec.toNat_or, toNat_wordX_family, show (kk.setWidth 16).toNat = kk.toNat by simp; omega,
    mul_pow_or_eq_add h]
  omega

theorem toNat_wordXY_family (f x y : Nibble) :
    (wordXY (f.setWidth 16 <<< 12) x y).toNat = (f.toNat * 256 + x.toNat * 16 + y.toNat) * 2 ^ 4 := by
  have h := y.isLt
  unfold wordXY
  rw [BitVec.toNat_or, toNat_wordX_family, show (y.setWidth 16 <<< 4).toNat = y.toNat * 16 by simp [Nat.shiftLeft_eq]; omega,
    mul_pow_or_eq_add (by omega)]
  omega

theorem encodeXYN_eq_wordXYN (f x y n : Nibble) : encodeXYN f x y n = wordXYN (f.setWidth 16 <<< 12) x y n := by
  apply BitVec.eq_of_toNat_eq
  have h := n.isLt
  unfold wordXYN
  rw [toNat_encodeXYN, BitVec.toNat_or, toNat_wordXY_family, show (n.setWidth 16).toNat = n.toNat by simp; omega,
    mul_pow_or_eq_add h]
  omega

/-- Format X: the fixed kk may be written into the match bits. -/
theorem encodeXK_eq_wordX (f x : Nibble) (kk : Byte) :
    encodeXK f x kk = wordX (f.setWidth 16 <<< 12 ||| kk.setWidth 16) x := by
  rw [encodeXK_eq_wordXK]; unfold wordXK wordX; ac_rfl

/-- Format XY: the fixed n may be written into the match bits. -/
theorem encodeXYN_eq_wordXY (f x y n : Nibble) :
    encodeXYN f x y n = wordXY (f.setWidth 16 <<< 12 ||| n.setWidth 16) x y := by
  rw [encodeXYN_eq_wordXYN]; unfold wordXYN wordXY wordX; ac_rfl

end Sys2Proof.Machine
end

