-- ==== Sys2Proof/Tests/Slice0.lean ====
section
/-! SUPPORT. The model's own tests. Expected results are the spec's: the encodings of files 40 to 44 for the decoder, the
vectors of 95_test_vectors.md (numbered as there) for the rest; and, for every statement with hypotheses, a witness that
meets them. -/

namespace Sys2Proof.Tests

open Sys2Proof Sys2Proof.Machine

/-! ### Helpers -/

/-- The decoder reads this instruction from the word's two bytes. -/
def decodesTo (w : Nat) (i : Instr) : Bool := decide (decodeTableWord 16 w = some i)

/-- The outcome is a next state with this property. -/
def nextHas (o : Host.Outcome State Fault Refusal) (p : State → Bool) : Bool :=
  match o with
  | .next t => p t
  | .fault _ => false
  | .refused _ => false

/-- The outcome is this error. -/
def faultIs (o : Host.Outcome State Fault Refusal) (f : Fault) : Bool :=
  match o with
  | .next _ => false
  | .fault g => decide (g = f)
  | .refused _ => false

theorem next_of_nextHas {o : Host.Outcome State Fault Refusal} {p : State → Bool} (h : nextHas o p = true) :
    ∃ t, o = .next t ∧ p t = true := by
  cases o with
  | next t => exact ⟨t, rfl, h⟩
  | fault f => cases h
  | refused r => cases h

theorem fault_of_faultIs {o : Host.Outcome State Fault Refusal} {f : Fault} (h : faultIs o f = true) : o = .fault f := by
  cases o with
  | next t => cases h
  | fault g => exact congrArg Host.Outcome.fault (of_decide_eq_true h)
  | refused r => cases h

/-- The state with the opcode at `pc`. -/
def withOp (w : Nat) (s : State) : State := s.withFetchWord 16 w

/-- One step of the opcode `w` from `s`. -/
def run (w : Nat) (s : State) : Host.Outcome State Fault Refusal := step (withOp w s)

/-- The state after reset with V[x] = b. -/
def v1 (x : Nibble) (b : Byte) : State := State.reset.writeV x b

/-- The state after reset with V[x] = b and V[y] = c. -/
def v2 (x : Nibble) (b : Byte) (y : Nibble) (c : Byte) : State := (v1 x b).writeV y c

/-- The state after reset with I = w. -/
def atIndex (w : Word) : State := State.reset.setI w

/-- The state after reset with SP = n. -/
def atDepth (n : Fin 17) : State := { State.reset with sp := n }

/-- The state after reset with these keys down. -/
def keys (ks : List Nat) : State :=
  { State.reset with key := Vector.ofFn (fun k => ks.contains k.val) }

/-! ### Decoding: each constructor by a word written out from its encoding -/

theorem test_decode_cls : decodesTo 0b0000000011100000 .cls = true := by decide
theorem test_decode_ret : decodesTo 0b0000000011101110 .ret = true := by decide
theorem test_decode_jp : decodesTo 0b0001111111111110 (.jp 0xFFE) = true := by decide
theorem test_decode_call : decodesTo 0b0010001000110100 (.call 0x234) = true := by decide
theorem test_decode_seImm : decodesTo 0b0011010100111100 (.seImm 0x5 0x3C) = true := by decide
theorem test_decode_sneImm : decodesTo 0b0100101011110001 (.sneImm 0xA 0xF1) = true := by decide
theorem test_decode_seReg : decodesTo 0b0101000111100000 (.seReg 0x1 0xE) = true := by decide
theorem test_decode_ldImm : decodesTo 0b0110111100111100 (.ldImm 0xF 0x3C) = true := by decide
theorem test_decode_addImm : decodesTo 0b0111001111110001 (.addImm 0x3 0xF1) = true := by decide
theorem test_decode_ldReg : decodesTo 0b1000010100100000 (.ldReg 0x5 0x2) = true := by decide
theorem test_decode_orReg : decodesTo 0b1000101011100001 (.orReg 0xA 0xE) = true := by decide
theorem test_decode_andReg : decodesTo 0b1000000101000010 (.andReg 0x1 0x4) = true := by decide
theorem test_decode_xorReg : decodesTo 0b1000111110110011 (.xorReg 0xF 0xB) = true := by decide
theorem test_decode_addReg : decodesTo 0b1000001100100100 (.addReg 0x3 0x2) = true := by decide
theorem test_decode_sub : decodesTo 0b1000010111100101 (.sub 0x5 0xE) = true := by decide
theorem test_decode_shr : decodesTo 0b1000101001000110 (.shr 0xA 0x4) = true := by decide
theorem test_decode_subn : decodesTo 0b1000000110110111 (.subn 0x1 0xB) = true := by decide
theorem test_decode_shl : decodesTo 0b1000111100101110 (.shl 0xF 0x2) = true := by decide
theorem test_decode_sneReg : decodesTo 0b1001001111100000 (.sneReg 0x3 0xE) = true := by decide
theorem test_decode_ldI : decodesTo 0b1010100111000001 (.ldI 0x9C1) = true := by decide
theorem test_decode_jpV0 : decodesTo 0b1011111111111110 (.jpV0 0xFFE) = true := by decide
theorem test_decode_rnd : decodesTo 0b1100000100000101 (.rnd 0x1 0x5) = true := by decide
theorem test_decode_drw : decodesTo 0b1101111111100101 (.drw 0xF 0xE 0x5) = true := by decide
theorem test_decode_skp : decodesTo 0b1110001110011110 (.skp 0x3) = true := by decide
theorem test_decode_sknp : decodesTo 0b1110010110100001 (.sknp 0x5) = true := by decide
theorem test_decode_ldVxDt : decodesTo 0b1111101000000111 (.ldVxDt 0xA) = true := by decide
theorem test_decode_ldVxK : decodesTo 0b1111000100001010 (.ldVxK 0x1) = true := by decide
theorem test_decode_ldDtVx : decodesTo 0b1111111100010101 (.ldDtVx 0xF) = true := by decide
theorem test_decode_ldStVx : decodesTo 0b1111001100011000 (.ldStVx 0x3) = true := by decide
theorem test_decode_addI : decodesTo 0b1111010100011110 (.addI 0x5) = true := by decide
theorem test_decode_ldF : decodesTo 0b1111101000101001 (.ldF 0xA) = true := by decide
theorem test_decode_ldB : decodesTo 0b1111000100110011 (.ldB 0x1) = true := by decide
theorem test_decode_ldMemVx : decodesTo 0b1111111101010101 (.ldMemVx 0xF) = true := by decide
theorem test_decode_ldVxMem : decodesTo 0b1111001101100101 (.ldVxMem 0x3) = true := by decide

/-! ### Well-formedness: words no row covers, one for each way R76 gives, and words one row covers -/

theorem test_wf_refuses_zero_word : wellFormedWord 0x0000#16 = false := by decide
theorem test_wf_refuses_sys : wellFormedWord 0x0123#16 = false := by decide
theorem test_wf_refuses_5xy1 : wellFormedWord 0x5121#16 = false := by decide
theorem test_wf_refuses_9xy1 : wellFormedWord 0x9121#16 = false := by decide
theorem test_wf_refuses_8xy8 : wellFormedWord 0x8128#16 = false := by decide
theorem test_wf_refuses_8xyF : wellFormedWord 0x812F#16 = false := by decide
theorem test_wf_refuses_E000 : wellFormedWord 0xE000#16 = false := by decide
theorem test_wf_refuses_F0FF : wellFormedWord 0xF0FF#16 = false := by decide
theorem test_wf_accepts_8xyE : wellFormedWord 0x812E#16 = true := by decide
theorem test_decode_refuses_undefined : decodeTableWord 16 0x8128 = none ∧ decodeTableWord 16 0x00E1 = none := by decide

/-! ### One step of each instruction (95_test_vectors.md part B, by its table and row) -/

-- B1
theorem test_ldImm_sets : nextHas (run 0x6A05 State.reset) (fun t => t.pc == 0x202 && t.readV 0xA == 5) = true := by decide
theorem test_ldImm_at_last_address :
    nextHas (run 0x6001 { State.reset with pc := 0xFFE }) (fun t => t.pc == 0x1000 && t.readV 0 == 1) = true := by decide
theorem test_addImm_wraps : nextHas (run 0x7AFF (v1 0xA 1)) (fun t => t.readV 0xA == 0 && t.readV 0xF == 0) = true := by decide
theorem test_addImm_vf_is_only_destination : nextHas (run 0x7F01 (v1 0xF 0xFF)) (fun t => t.readV 0xF == 0) = true := by decide
-- B2
theorem test_ldReg_copies : nextHas (run 0x8120 (v1 2 7)) (fun t => t.readV 1 == 7 && t.readV 2 == 7) = true := by decide
theorem test_orReg_keeps_vf :
    nextHas (run 0x8121 ((v2 1 0xF0 2 0x0F).writeV 0xF 5)) (fun t => t.readV 1 == 0xFF && t.readV 0xF == 5) = true := by decide
theorem test_andReg : nextHas (run 0x8122 (v2 1 0xF0 2 0x3C)) (fun t => t.readV 1 == 0x30) = true := by decide
theorem test_xorReg : nextHas (run 0x8123 (v2 1 0xFF 2 0x0F)) (fun t => t.readV 1 == 0xF0) = true := by decide
theorem test_xorReg_same_register : nextHas (run 0x8113 (v1 1 0xAB)) (fun t => t.readV 1 == 0) = true := by decide
-- B3
theorem test_addReg_carries : nextHas (run 0x8AB4 (v2 0xA 10 0xB 250)) (fun t => t.readV 0xA == 4 && t.readV 0xF == 1) = true := by
  decide
theorem test_addReg_result_stays_in_vf : nextHas (run 0x8F14 (v2 0xF 0xF0 1 0x20)) (fun t => t.readV 0xF == 0x10) = true := by decide
theorem test_sub_borrows : nextHas (run 0x8125 (v2 1 3 2 5)) (fun t => t.readV 1 == 0xFE && t.readV 0xF == 0) = true := by decide
theorem test_sub_equal_gives_zero_flag :
    nextHas (run 0x8125 (v2 1 5 2 5)) (fun t => t.readV 1 == 0 && t.readV 0xF == 0) = true := by decide
theorem test_shr_ignores_y : nextHas (run 0x81F6 (v2 1 2 0xF 0x77)) (fun t => t.readV 1 == 1 && t.readV 0xF == 0) = true := by decide
theorem test_shr_result_stays_in_vf : nextHas (run 0x8F06 (v1 0xF 3)) (fun t => t.readV 0xF == 1) = true := by decide
theorem test_subn_subtracts_from_vy :
    nextHas (run 0x8127 (v2 1 3 2 5)) (fun t => t.readV 1 == 2 && t.readV 0xF == 1) = true := by decide
theorem test_subn_equal_gives_zero_flag :
    nextHas (run 0x8127 (v2 1 5 2 5)) (fun t => t.readV 1 == 0 && t.readV 0xF == 0) = true := by decide
theorem test_shl_high_bit_out : nextHas (run 0x810E (v1 1 0x81)) (fun t => t.readV 1 == 2 && t.readV 0xF == 1) = true := by decide
theorem test_shl_no_bit_out : nextHas (run 0x810E (v1 1 0x40)) (fun t => t.readV 1 == 0x80 && t.readV 0xF == 0) = true := by decide
-- B4
theorem test_ldI : nextHas (run 0xAFFF State.reset) (fun t => t.i == 0xFFF) = true := by decide
theorem test_addI_wraps : nextHas (run 0xF51E ((v1 5 0xFF).setI 0xF80)) (fun t => t.i == 0x07F && t.readV 0xF == 0) = true := by
  decide
theorem test_ldF_glyph : nextHas (run 0xFA29 (v1 0xA 0xA)) (fun t => t.i == 0x082) = true := by decide
theorem test_ldF_unmasked : nextHas (run 0xF029 (v1 0 0xFF)) (fun t => t.i == 0x54B) = true := by decide
theorem test_ldB_digits_wrap : nextHas (run 0xF033 ((v1 0 254).setI 0xFFE))
    (fun t => t.memRead 0xFFE == 2 && t.memRead 0xFFF == 5 && t.memRead 0 == 4) = true := by decide
theorem test_ldB_overwrites : nextHas (run 0xF033 ((atIndex 0x300).storeBytes 0x300 [9, 9, 9]))
    (fun t => t.memRead 0x300 == 0 && t.memRead 0x301 == 0 && t.memRead 0x302 == 0) = true := by decide
theorem test_ldMemVx : nextHas (run 0xF255 (((v2 0 1 1 2).writeV 2 3).setI 0x400))
    (fun t => t.memRead 0x400 == 1 && t.memRead 0x402 == 3 && t.memRead 0x403 == 0 && t.i == 0x400) = true := by decide
theorem test_ldMemVx_wraps : nextHas (run 0xF155 ((v2 0 0xAA 1 0xBB).setI 0xFFF))
    (fun t => t.memRead 0xFFF == 0xAA && t.memRead 0 == 0xBB) = true := by decide
theorem test_ldVxMem_wraps : nextHas (run 0xF165 ((atIndex 0xFFF).storeBytes 0xFFF [0x12, 0x34]))
    (fun t => t.readV 0 == 0x12 && t.readV 1 == 0x34 && t.readV 2 == 0) = true := by decide
theorem test_ldVxMem_stops_at_x : nextHas (run 0xF065 (((v1 1 7).setI 0x300).storeBytes 0x300 [0x12, 0x34]))
    (fun t => t.readV 0 == 0x12 && t.readV 1 == 7 && t.i == 0x300) = true := by decide
-- B5
theorem test_font_bytes : State.reset.loadBytes 0x050 5 = [0xF0, 0x90, 0x90, 0x90, 0xF0] ∧
    State.reset.loadBytes 0x09B 6 = [0xF0, 0x80, 0xF0, 0x80, 0x80, 0x00] := by decide
-- B6
theorem test_cls : nextHas (run 0x00E0 (State.reset.setFb (State.reset.fb.toggle 63 31))) (fun t => !t.fb.cell 63 31) = true := by
  decide
theorem test_drw_glyph : nextHas (run 0xD015 (atIndex 0x050))
    (fun t => t.fb.cell 0 0 && t.fb.cell 3 1 && !t.fb.cell 1 1 && !t.fb.cell 4 0 && t.fb.cell 0 4 && !t.fb.cell 0 5) = true := by
  decide
theorem test_drw_wraps_and_takes_x_before_vf :
    nextHas (run 0xDF11 (((v2 0xF 60 1 31).setI 0x300).memWrite 0x300 0xFF))
      (fun t => t.fb.cell 60 31 && t.fb.cell 3 31 && !t.fb.cell 4 31 && !t.fb.cell 3 0 && t.readV 0xF == 0) = true := by decide
-- B7
theorem test_ret : nextHas (run 0x00EE { atDepth 1 with stack := State.reset.stack.set 0 0x206 })
    (fun t => t.pc == 0x206 && t.sp == 0 && t.stack[0] == 0x206) = true := by decide
theorem test_ret_underflow : faultIs (run 0x00EE State.reset) (.stackUnderflow 0x200 0x00EE) = true := by decide
theorem test_jp : nextHas (run 0x1234 State.reset) (fun t => t.pc == 0x234) = true := by decide
theorem test_call_last_slot : nextHas (run 0x2210 (atDepth 15)) (fun t => t.pc == 0x210 && t.sp == 16 && t.stack[15] == 0x202) = true := by
  decide
theorem test_call_overflow : faultIs (run 0x2210 (atDepth 16)) (.stackOverflow 0x200 0x2210) = true := by decide
theorem test_seImm_skips : nextHas (run 0x3000 { State.reset with pc := 0xFFC }) (fun t => t.pc == 0x1000) = true := by decide
theorem test_seImm_no_skip : nextHas (run 0x3001 State.reset) (fun t => t.pc == 0x202) = true := by decide
theorem test_sneImm_no_skip : nextHas (run 0x4105 (v1 1 5)) (fun t => t.pc == 0x202) = true := by decide
theorem test_sneImm_skips : nextHas (run 0x4105 (v1 1 6)) (fun t => t.pc == 0x204) = true := by decide
theorem test_seReg_skips : nextHas (run 0x5120 (v2 1 0x33 2 0x33)) (fun t => t.pc == 0x204) = true := by decide
theorem test_seReg_no_skip : nextHas (run 0x5120 (v2 1 1 2 2)) (fun t => t.pc == 0x202) = true := by decide
theorem test_sneReg_skips : nextHas (run 0x9120 (v2 1 1 2 2)) (fun t => t.pc == 0x204) = true := by decide
theorem test_sneReg_same_register : nextHas (run 0x9110 (v1 1 1)) (fun t => t.pc == 0x202) = true := by decide
theorem test_jpV0 : nextHas (run 0xB300 (v1 0 0x10)) (fun t => t.pc == 0x310) = true := by decide
theorem test_jpV0_not_reduced : nextHas (run 0xBFFF (v1 0 0xFF)) (fun t => t.pc == 0x10FE) = true := by decide
-- B8
theorem test_fetch_out_of_bounds : faultIs (step { atDepth 16 with pc := 0xFFF }) (.outOfBoundsFetch 0xFFF) = true := by decide
theorem test_fetch_odd_pc : nextHas (run 0x6001 { State.reset with pc := 0x201 }) (fun t => t.pc == 0x203 && t.readV 0 == 1) = true := by
  decide
theorem test_unknown_opcode : faultIs (run 0x5121 State.reset) (.unknownOpcode 0x5121 0x200) = true := by decide
-- B9
theorem test_rnd_masks : nextHas (run 0xC300 (v1 3 0xFF)) (fun t => t.pc == 0x202 && t.draws == 1) = true := by decide
theorem test_rnd_zero_mask : ∃ t, exec (.rnd 3 0x00) State.reset = .next t ∧ t.readV 3 = 0 := ⟨_, rfl, by simp⟩
theorem test_skp_down : nextHas (run 0xE59E ((keys [15]).writeV 5 15)) (fun t => t.pc == 0x204) = true := by decide
theorem test_skp_invalid : faultIs (run 0xE59E (v1 5 0x10)) (.invalidKeyIndex 0x200 0xE59E 0x10) = true := by decide
theorem test_sknp_up : nextHas (run 0xE5A1 (v1 5 5)) (fun t => t.pc == 0x204) = true := by decide
theorem test_sknp_invalid : faultIs (run 0xE5A1 (v1 5 0xFF)) (.invalidKeyIndex 0x200 0xE5A1 0xFF) = true := by decide
theorem test_ldVxDt : nextHas (run 0xF107 (State.reset.setDt 0x3C)) (fun t => t.readV 1 == 0x3C && t.dt == 0x3C) = true := by decide
theorem test_ldVxK_waits : nextHas (run 0xF30A State.reset) (fun t => decide (t = withOp 0xF30A State.reset)) = true := by decide
theorem test_ldVxK_lowest : nextHas (run 0xF30A (keys [7, 3])) (fun t => t.pc == 0x202 && t.readV 3 == 3) = true := by decide
theorem test_ldDtVx : nextHas (run 0xF015 (v1 0 5)) (fun t => t.dt == 5 && t.st == 0) = true := by decide
theorem test_ldStVx : nextHas (run 0xF218 (v1 2 0x1E)) (fun t => t.st == 0x1E && t.dt == 0) = true := by decide
theorem test_tick_stops_at_zero : (tick (State.reset.setSt 1)).st = 0 ∧ (tick State.reset).dt = 0 ∧
    (tick (State.reset.setDt 0xFF)).dt = 0xFE := by decide
-- B10
theorem test_reset_default_font : resetWith fontDefault State.reset = State.reset := by decide
theorem test_reset_keeps_the_draw_counter :
    (HostOp.reset.perform fontDefault { v1 3 9 with draws := 4 }).1.draws = 4 := by decide
theorem test_load_does_not_reset : nextHas (loadProgram [0x12, 0x34] { v1 0 7 with pc := 0x208 })
    (fun t => t.memRead 0x200 == 0x12 && t.memRead 0x201 == 0x34 && t.pc == 0x208 && t.readV 0 == 7) = true := by decide
theorem test_result_codes : (Fault.outOfBoundsFetch 0).code = 1 ∧ (Fault.unknownOpcode 0 0).code = 2 ∧
    (Fault.stackOverflow 0 0).code = 3 ∧ (Fault.stackUnderflow 0 0).code = 4 ∧ (Fault.invalidKeyIndex 0 0 0).code = 5 ∧
    (Fault.programTooLarge 0).code = 6 ∧ Result.ok.code = some 0 := by decide
theorem test_memory_is_canonical :
    (State.reset.memWrite 0x300 7).mem = [(0x300, 7)] ∧ ((State.reset.memWrite 0x300 7).memWrite 0x300 0).mem = [] ∧
    Memory.wf [(0x300, 7), (0x200, 1)] = false := by decide

/-! ### Witnesses: for each statement with hypotheses, a state and operands that meet them all -/

theorem reset_inv : State.reset.Inv :=
  ⟨by decide, by decide, fun _ h => absurd h (Nat.not_lt_zero _), by decide, by decide⟩

theorem withOp_inv (w : Nat) {s : State} (h : s.Inv) : (withOp w s).Inv := by
  unfold withOp State.withFetchWord State.storeOpcodeAtPc
  split
  · exact h
  · exact ⟨by simpa using h.index, by simpa using h.depth, by simpa using h.slots, by simpa using h.counter,
      State.wf_storeBytes _ _ h.memory⟩

theorem witness_EncodeOfDecodeIsTheWord : decodeWord 0x8128#16 = .error (.unknownOpcode 0x8128#16) ∧
    decodeWord 0x812E#16 = .ok (.shl 1 2) := by decide

theorem witness_DecoderAgreesWithTheOpcodeMap : decodeWord 0xF165#16 = .ok (.ldVxMem 1) := by decide

theorem witness_StepRunsTheDecodedInstruction :
    let s := withOp 0x6A05 { State.reset with pc := 0xFFE }
    s.pc.toNat < 0xFFF ∧
    (0x6A05#16).toNat = 256 * (s.memRead s.pc.toNat).toNat + (s.memRead (s.pc.toNat + 1)).toNat ∧
    decodeWord 0x6A05#16 = .ok (.ldImm 0xA 0x05) := by decide

theorem witness_FetchPastTheEndIsOutOfBounds :
    0xFFF < ({ State.reset with pc := 0xFFF } : State).pc.toNat + 1 ∧
    ({ State.reset with pc := 0xFFE } : State).pc.toNat + 1 ≤ 0xFFF := by decide

/-- Each error of the taxonomy is raised by some state: the five tests named. -/
theorem witness_StepErrorsAreExactlyTheTaxonomy :
    step { atDepth 16 with pc := 0xFFF } = .fault (.outOfBoundsFetch 0xFFF) ∧
    run 0x5121 State.reset = .fault (.unknownOpcode 0x5121 0x200) ∧
    run 0x2210 (atDepth 16) = .fault (.stackOverflow 0x200 0x2210) ∧
    run 0x00EE State.reset = .fault (.stackUnderflow 0x200 0x00EE) ∧
    run 0xE59E (v1 5 0x10) = .fault (.invalidKeyIndex 0x200 0xE59E 0x10) :=
  ⟨fault_of_faultIs test_fetch_out_of_bounds, fault_of_faultIs test_unknown_opcode, fault_of_faultIs test_call_overflow,
    fault_of_faultIs test_ret_underflow, fault_of_faultIs test_skp_invalid⟩

/-- Both sides of each condition at its boundary. -/
theorem witness_EveryInstructionCompletesElsewhere :
    nextHas (exec .ret (atDepth 1)) (fun _ => true) = true ∧ nextHas (exec .ret (atDepth 0)) (fun _ => true) = false ∧
    nextHas (exec (.call 0) (atDepth 15)) (fun _ => true) = true ∧
    nextHas (exec (.call 0) (atDepth 16)) (fun _ => true) = false ∧
    nextHas (exec (.skp 5) (v1 5 0x0F)) (fun _ => true) = true ∧
    nextHas (exec (.skp 5) (v1 5 0x10)) (fun _ => true) = false ∧
    nextHas (exec (.sknp 5) (v1 5 0x0F)) (fun _ => true) = true ∧
    nextHas (exec (.sknp 5) (v1 5 0x10)) (fun _ => true) = false := by decide

theorem witness_EveryInstructionWritesOnlyItsTargets :
    ∃ t, exec (.addReg 0xA 0xB) (v2 0xA 10 0xB 250) = .next t ∧ ¬ writes (.addReg 0xA 0xB) (v2 0xA 10 0xB 250) (.v 0xB) :=
  ⟨_, rfl, by unfold writes; decide⟩

theorem witness_StepLeavesTheTimersAlone :
    (∃ t, step (withOp 0xF015 (v1 0 5)) = .next t ∧ decide (t.dt ≠ (withOp 0xF015 (v1 0 5)).dt) = true) ∧
    (∃ t, step (withOp 0xF018 (v1 0 5)) = .next t ∧ decide (t.st ≠ (withOp 0xF018 (v1 0 5)).st) = true) :=
  ⟨next_of_nextHas (by decide), next_of_nextHas (by decide)⟩

/-- Clause 1 with a next state and with an error, and clause 2 with the draw at its own place. -/
theorem witness_StepDependsOnTheStateAndTheDrawAlone :
    (∀ x kk, decodeWord (withOp 0x1234 State.reset).opcodeAtPc ≠ .ok (.rnd x kk)) ∧
    (∃ t, step (withOp 0x1234 State.reset) = .next t ∧ (t.pc == 0x234) = true) ∧
    (∀ x kk, decodeWord (withOp 0x5121 State.reset).opcodeAtPc ≠ .ok (.rnd x kk)) ∧
    step (withOp 0x5121 State.reset) = .fault (.unknownOpcode 0x5121 0x200) ∧
    Config.rnd 0 = Config.rnd (withOp 0xC30F State.reset).draws ∧
    decodeWord (withOp 0xC30F State.reset).opcodeAtPc = .ok (.rnd 3 0x0F) ∧
    (∃ t, step (withOp 0xC30F State.reset) = .next t ∧ (t.draws == 1) = true) := by
  refine ⟨?_, next_of_nextHas (by decide), ?_, fault_of_faultIs test_unknown_opcode, ?_, by decide,
    next_of_nextHas (by decide)⟩
  · have h : decodeWord (withOp 0x1234 State.reset).opcodeAtPc = .ok (.jp 0x234) := by decide
    intro x kk; rw [h]; simp
  · have h : decodeWord (withOp 0x5121 State.reset).opcodeAtPc = .error (.unknownOpcode 0x5121) := by decide
    intro x kk; rw [h]; simp
  · exact congrArg Config.rnd (by decide)

/-- Two states that differ in the keypad, a timer and the draw counter only. -/
theorem witness_ErrorsDependOnPcMemorySpAndRegisters :
    let s := withOp 0x00EE State.reset
    let s' : State := { s with key := (keys [3]).key, dt := 9, draws := 4 }
    s'.pc = s.pc ∧ (∀ a, s'.memRead a = s.memRead a) ∧ s'.sp = s.sp ∧ (∀ x, s'.readV x = s.readV x) ∧
    step s = .fault (.stackUnderflow 0x200 0x00EE) :=
  ⟨rfl, fun _ => rfl, rfl, fun _ => rfl, fault_of_faultIs test_ret_underflow⟩

theorem witness_AFailedOperationChangesNothing :
    HostOp.step.perform fontDefault (withOp 0x00EE State.reset) =
      (withOp 0x00EE State.reset, .err (.stackUnderflow 0x200 0x00EE)) :=
  perform_of_fault (fault_of_faultIs test_ret_underflow)

theorem witness_StepKeepsTheInvariant :
    (withOp 0xF255 (atIndex 0x400)).Inv ∧ ∃ t, step (withOp 0xF255 (atIndex 0x400)) = .next t ∧ (t.pc == 0x202) = true :=
  ⟨withOp_inv _ ⟨by decide, by decide, fun _ h => absurd h (Nat.not_lt_zero _), by decide, by decide⟩,
    next_of_nextHas (by decide)⟩

theorem witness_HostOperationsKeepTheInvariant : (withOp 0xF255 (atIndex 0x400)).Inv :=
  witness_StepKeepsTheInvariant.1

/-- A reachable state past the end: after reset, a jump to 0xFFF is loaded and run. -/
theorem witness_ReachableStatesStayInBounds :
    Reachable fontDefault (performAll fontDefault [.loadProgram [0x1F, 0xFF], .step] (resetWith fontDefault (v1 3 9))) ∧
    0x0FFF ≤ (performAll fontDefault [.loadProgram [0x1F, 0xFF], .step] (resetWith fontDefault (v1 3 9))).pc.toNat :=
  ⟨⟨_, _, rfl⟩, by decide⟩

theorem witness_CanonicalMemoriesThatReadAlikeAreEqual :
    let m : Memory := (State.reset.memWrite 0x300 7).mem
    m.wf = true ∧ m.read 0x300 = 7 := by decide

theorem witness_AStoredOpcodeIsFetchedNext :
    let s := (v2 0 0x12 1 0x34).setI 0x200
    ∃ t, exec (.ldMemVx 1) s = .next t ∧ 0 + 1 ≤ (1 : Nibble).toNat ∧
      decide (t.pc.toNat = s.atI 0 ∧ t.pc.toNat < 0xFFF) = true :=
  ⟨_, rfl, by decide, by decide⟩

theorem witness_StoreThenLoadRestoresTheRegisters :
    let s := (v2 0 0x12 1 0x34).setI 0x300
    ∃ t, exec (.ldMemVx 1) s = .next t ∧ ({ State.reset with i := t.i, mem := t.mem } : State).readV 0 ≠ s.readV 0 :=
  ⟨_, rfl, by decide⟩

/-- Both collision clauses: a set bit on a cell that is on, and every set bit on a cell that is off. -/
theorem witness_DrawFlipsTheSpriteAndReportsCollision :
    let s := (atIndex 0x300).memWrite 0x300 0x80
    let on := s.setFb (s.fb.toggle 0 0)
    ((on.memRead (on.atI 0)).getLsbD (7 - 0) = true ∧ on.fb.cell ((on.readV 0).toNat + 0) ((on.readV 1).toNat + 0) = true) ∧
    ((s.memRead (s.atI 0)).getLsbD (7 - 0) = true ∧ s.fb.cell ((s.readV 0).toNat + 0) ((s.readV 1).toNat + 0) = false) := by
  decide

theorem witness_DrawingTwiceRestoresTheScreen :
    let s := (v1 0 60).setI 0x050
    ∃ t, exec (.drw 0 1 5) s = .next t ∧ t.readV 0 = s.readV 0 ∧ t.readV 1 = s.readV 1 :=
  ⟨_, rfl, rfl, rfl⟩

/-- SP at 1 and 16 (the ends of the range in which 00EE completes) and 0 (where it raises). -/
theorem witness_ReturnPopsThePc :
    (atDepth 1).sp.val = (0 : Fin 16).val + 1 ∧ (atDepth 16).sp.val = (15 : Fin 16).val + 1 ∧ (atDepth 0).sp.val = 0 ∧
    (withOp 0x00EE (atDepth 0)).pc.toNat < 0xFFF ∧ (withOp 0x00EE (atDepth 0)).opcodeAtPc = 0x00EE#16 ∧
    (withOp 0x00EE (atDepth 0)).sp.val = 0 ∧
    0xFFF ≤ (({ atDepth 1 with stack := State.reset.stack.set 0 0x1000 } : State).stack[(0 : Fin 16)]).toNat := by decide

theorem witness_JumpSetsThePc :
    (withOp 0x1200 State.reset).pc.toNat < 0xFFF ∧
    (withOp 0x1200 State.reset).opcodeAtPc = 0x1000#16 ||| (withOp 0x1200 State.reset).pc := by decide

/-- SP at 0 and 15 (the ends of the range in which 2nnn completes) and 16 (where it raises). -/
theorem witness_CallPushesTheReturnAddress :
    (atDepth 0).sp.val = (0 : Fin 16).val ∧ (atDepth 15).sp.val = (15 : Fin 16).val ∧ (atDepth 16).sp.val = 16 ∧
    (withOp 0x2210 (atDepth 16)).pc.toNat < 0xFFF ∧ (withOp 0x2210 (atDepth 16)).opcodeAtPc = wordA 0x2000#16 0x210 ∧
    (withOp 0x2210 (atDepth 16)).sp.val = 16 := by decide

theorem witness_ReturnComesBackBehindTheCall :
    ∃ t, exec (.call 0x300) (atDepth 15) = .next t ∧ (t.jump 0x345).sp = t.sp ∧ (t.jump 0x345).stack = t.stack :=
  ⟨_, rfl, rfl, rfl⟩

theorem witness_RegisterSkipsCompareVxAndVy : (1 : Nibble) ≠ 0#4 ∧ UndefinedWord (wordXYN 0x5000#16 1 2 1) := by
  unfold UndefinedWord; decide

/-- V5 at 0xF (a key's number) and at 0x10 (none). -/
theorem witness_KeySkipsReadTheNamedKey :
    ((v1 5 0x0F).readV 5).toNat = (0xF : Nibble).toNat ∧ 0xF < ((v1 5 0x10).readV 5).toNat := by decide

theorem witness_KeyWaitTakesTheLowestKey :
    ((keys [3, 7]).keyDown 3 = true ∧ ∀ j : Nibble, j.toNat < (3 : Nibble).toNat → (keys [3, 7]).keyDown j = false) ∧
    (∀ k : Nibble, State.reset.keyDown k = false) ∧
    (withOp 0xF30A State.reset).pc.toNat < 0xFFF ∧ (withOp 0xF30A State.reset).opcodeAtPc = wordX 0xF00A#16 3 ∧
    (∀ k : Nibble, (withOp 0xF30A State.reset).keyDown k = false) := by decide

theorem witness_NoInstructionReadsTheSoundTimer : ∃ t, exec (.ldStVx 2) (v1 2 0x1E) = .next t ∧ t.st = 0x1E :=
  ⟨_, rfl, rfl⟩

/-- Both ends of FONT, and both sides of it. -/
theorem witness_ResetGivesTheListedValues :
    HostOp.reset.perform fontDefault (v1 3 9) = (resetWith fontDefault (v1 3 9), .ok) ∧
    fontDefault.toList[0x050 - 0x050]? = some 0xF0#8 ∧ fontDefault.toList[0x09F - 0x050]? = some 0x80#8 ∧
    (0x04F#12).toNat < 0x050 ∧ 0x0A0 ≤ (0x0A0#12).toNat :=
  ⟨rfl, by decide, by decide, by decide, by decide⟩

theorem witness_LoadProgramWritesItsBytesOnly :
    (List.replicate 3584 0x12#8).length ≤ 3584 ∧ 3584 < (List.replicate 3585 0x12#8).length := by
  simp only [List.length_replicate]; decide

theorem witness_TheFirstStepRunsTheLoadedOpcode :
    (∃ t, (HostOp.loadProgram [0x12, 0x34]).perform fontDefault (resetWith fontDefault (v1 3 9)) = (t, .ok)) ∧
    decodeWord (wordOfBytes 0x12 0x34) = .ok (.jp 0x234) :=
  ⟨⟨_, rfl⟩, by decide⟩

/-- A step that draws, and a reset after a draw. -/
theorem witness_NoScheduleRepeatsADraw :
    (withOp 0xC30F State.reset).pc.toNat < 0xFFF ∧
    decodeWord (withOp 0xC30F State.reset).opcodeAtPc = .ok (.rnd 3 0x0F) ∧
    ¬ (HostOp.reset = HostOp.step ∧ (State.reset.withDraws 4).pc.toNat < 0xFFF ∧
      ∃ x kk, decodeWord (State.reset.withDraws 4).opcodeAtPc = .ok (.rnd x kk)) :=
  ⟨by decide, by decide, fun h => HostOp.noConfusion h.1⟩

theorem witness_RegistersAfterFlagSettersOutsideVf : (0xA : Nibble) ≠ 0xF#4 := by decide

theorem witness_RangesOfStoreAndLoad : (2 : Nibble).toNat ≤ (2 : Nibble).toNat ∧ ¬ (3 : Nibble).toNat ≤ (2 : Nibble).toNat := by
  decide

end Sys2Proof.Tests
end

section
/-! PROOF. Who writes the timers: among the instructions only Fx15 and Fx18 (44_timer_input_random.md R185, R186), and the
host's tick, which counts them down (60_exceptions.md R212). -/

namespace Sys2Proof.Machine

/-- Of the instructions, only Fx15 changes DT and only Fx18 changes ST. -/
theorem exec_timers {i : Instr} {s t : State} (h : exec i s = .next t) :
    (t.dt = s.dt ∨ ∃ x, i = .ldDtVx x) ∧ (t.st = s.st ∨ ∃ x, i = .ldStVx x) := by
  cases i
  case ldDtVx x => cases h; exact ⟨.inr ⟨x, rfl⟩, .inl rfl⟩
  case ldStVx x => cases h; exact ⟨.inl rfl, .inr ⟨x, rfl⟩⟩
  case ret =>
    simp only [exec, execRet] at h
    split at h
    · cases h
    · next hp => cases h; obtain ⟨_, _, rfl⟩ := State.pop_eq_some hp; exact ⟨.inl rfl, .inl rfl⟩
  case call nnn =>
    simp only [exec, execCall] at h
    split at h
    · cases h
    · next hp => cases h; obtain ⟨_, rfl⟩ := State.push_eq_some hp; exact ⟨.inl rfl, .inl rfl⟩
  case skp x =>
    simp only [exec, execSkp] at h
    split at h
    · cases h
    · cases h; simp
  case sknp x =>
    simp only [exec, execSknp] at h
    split at h
    · cases h
    · cases h; simp
  case ldVxK x =>
    simp only [exec, execLdVxK] at h
    split at h <;> cases h <;> exact ⟨.inl rfl, .inl rfl⟩
  case seImm | sneImm | seReg | sneReg | ldB | ldMemVx => cases h; simp
  all_goals cases h; exact ⟨.inl rfl, .inl rfl⟩

/-- A timer counts down in the integers and stops at 0: the truncated subtraction of `Nat`. -/
theorem toNat_countDown (b : Byte) : (countDown b).toNat = b.toNat - 1 := by
  have hb := b.isLt
  unfold countDown
  split
  · simp only [BitVec.toNat_sub, BitVec.toNat_ofNat]; omega
  · omega

/-- Settles O11: a step that completes ran the decoded instruction on the advanced state, whose timers are those before the
step, so what `exec_timers` says of the instruction holds of the step. -/
theorem stepLeavesTheTimersAlone : Obligations.StepLeavesTheTimersAlone := by
  unfold Obligations.StepLeavesTheTimersAlone
  refine ⟨fun s t h => ?_, fun s => ⟨toNat_countDown s.dt, toNat_countDown s.st⟩⟩
  obtain ⟨_, i, hi, hx⟩ := step_next h
  obtain ⟨hdt, hst⟩ := exec_timers hx
  simp only [State.advance_dt, State.advance_st] at hdt hst
  refine ⟨fun hne => ?_, fun hne => ?_⟩
  · obtain ⟨x, rfl⟩ := hdt.resolve_left hne
    exact ⟨x, hi⟩
  · obtain ⟨x, rfl⟩ := hst.resolve_left hne
    exact ⟨x, hi⟩

end Sys2Proof.Machine
end

section
/-! PROOF. Every instruction decodes from its own word, so its `encode` equation alone gives `EncodedAs`; and the loads and
the immediate add of 40_arith_logic.md (R100 to R102), each of which is one `writeV`. -/

namespace Sys2Proof.Machine

/-- Decoding undoes encoding, by the family nibble and then the field that selects within the family (30_encoding.md R74). -/
theorem decodeWord_encode (i : Instr) : decodeWord (encode i) = .ok i := by
  cases i
  case cls | ret => decide
  case orReg | andReg | xorReg | ldReg | addReg | sub | shr | subn | shl =>
    simp [encode, decodeWord, decodeFamily8]
  case skp | sknp => simp [encode, decodeWord, decodeFamilyE]
  case ldVxDt | ldVxK | ldDtVx | ldStVx | addI | ldF | ldB | ldMemVx | ldVxMem =>
    simp [encode, decodeWord, decodeFamilyF]
  case jp | call | seImm | sneImm | seReg | ldImm | addImm | sneReg | ldI | jpV0 | rnd | drw =>
    simp [encode, decodeWord]

theorem encodedAs_of_encode_eq {i : Instr} {w : Word} (h : encode i = w) : EncodedAs i w :=
  ⟨h, h ▸ decodeWord_encode i⟩

/-- Settles O21: the instruction is the one write `V[x] <- kk`. -/
theorem loadImmediateSetsVx : Obligations.LoadImmediateSetsVx := by
  unfold Obligations.LoadImmediateSetsVx
  intro x kk
  have hword : encode (.ldImm x kk) = wordXK 0x6000#16 x kk := encodeXK_eq_wordXK 0x6 x kk
  exact ⟨encodedAs_of_encode_eq hword, fun s =>
    ⟨s.writeV x kk, rfl, State.readV_writeV_self s x kk, changesOnly_writeV s x kk⟩⟩

/-- Settles O22: the instruction is the one write of the byte sum, and addition of bytes is addition modulo 256. -/
theorem addImmediateWrapsWithoutFlag : Obligations.AddImmediateWrapsWithoutFlag := by
  unfold Obligations.AddImmediateWrapsWithoutFlag
  intro x kk
  have hword : encode (.addImm x kk) = wordXK 0x7000#16 x kk := encodeXK_eq_wordXK 0x7 x kk
  refine ⟨encodedAs_of_encode_eq hword, fun s =>
    ⟨s.writeV x (s.readV x + kk), rfl, ?_, changesOnly_writeV s x _⟩⟩
  rw [State.readV_writeV_self, BitVec.toNat_add]

/-- Settles O23: the instruction is the one write `V[x] <- V[y]`, with `V[y]` read before it. -/
theorem registerCopyTakesVy : Obligations.RegisterCopyTakesVy := by
  unfold Obligations.RegisterCopyTakesVy
  intro x y
  have hword : encode (.ldReg x y) = wordXY 0x8000#16 x y := encodeXYN_eq_wordXY 0x8 x y 0x0
  exact ⟨encodedAs_of_encode_eq hword, fun s =>
    ⟨s.writeV x (s.readV y), rfl, State.readV_writeV_self s x _, changesOnly_writeV s x _⟩⟩

end Sys2Proof.Machine
end

section
/-! PROOF. The load of the index register (41_index_memory.md R120): one `setI` of the zero-extended address. -/

namespace Sys2Proof.Machine

/-- Settles O28: the instruction is the one write of the zero-extended address, whose value as a number is that of nnn. -/
theorem loadIndexSetsI : Obligations.LoadIndexSetsI := by
  unfold Obligations.LoadIndexSetsI
  intro nnn
  have hword : encode (.ldI nnn) = wordA 0xA000#16 nnn := encodeA_eq_wordA 0xA nnn
  exact ⟨encodedAs_of_encode_eq hword, fun s =>
    ⟨s.setI (addrWord nnn), rfl, State.toNat_addrWord nnn, changesOnly_setI s _⟩⟩

end Sys2Proof.Machine
end

section
/-! PROOF. Clearing the screen (42_draw_sprite.md R140): one `setFb` of the framebuffer with every cell off. -/

namespace Sys2Proof.Machine

/-- Settles O35: the instruction replaces the framebuffer by the clear one, so every cell reads off and a replacement of the
framebuffer leaves every other piece of the state alone. -/
theorem clearTurnsEveryCellOff : Obligations.ClearTurnsEveryCellOff := by
  unfold Obligations.ClearTurnsEveryCellOff
  have hword : encode .cls = 0x00E0#16 := rfl
  exact ⟨encodedAs_of_encode_eq hword, fun s =>
    ⟨s.setFb Framebuffer.clear, rfl, fun x y => Framebuffer.cell_clear x.val y.val, changesOnly_setFb s _⟩⟩

end Sys2Proof.Machine
end

section
/-! PROOF. What the statements about control flow share: a step outside memory, and a step whose instruction raises. -/

namespace Sys2Proof.Machine

/-- A `pc` at or behind the last byte of memory ends the step in the fetch (20_memory.md R52). -/
theorem step_outOfBounds {s : State} (h : 0xFFF ≤ s.pc.toNat) : step s = .fault (.outOfBoundsFetch s.pc) := by
  rcases step_cases s with ⟨_, hstep⟩ | ⟨hlt, _⟩ | ⟨hlt, _⟩
  · exact hstep
  · omega
  · omega

/-- A step whose instruction raises returns the error and leaves the state as it was (00_scope.md R8). -/
theorem perform_step_of_exec_fault {font : Font} {s : State} {i : Instr} {f : Fault} (hpc : s.pc.toNat < 0xFFF)
    (hi : decodeWord s.opcodeAtPc = .ok i) (hf : exec i s.advance = .fault f) :
    HostOp.step.perform font s = (s, .err f) :=
  perform_of_fault ((step_of_decode hpc hi).trans hf)

end Sys2Proof.Machine
end

section
/-! PROOF. Return (43_control_flow.md R161, 60_exceptions.md R204): a pop, then a jump to the popped word. -/

namespace Sys2Proof.Machine

/-- With SP = j + 1 the pop gives the word of slot j. -/
theorem State.pop_of_sp_succ {s : State} {j : Fin 16} (h : s.sp.val = j.val + 1) :
    ∃ t, s.pop = some (s.stack[j], t) ∧ t.sp.val = j.val := by
  cases hp : s.pop with
  | none => have := State.pop_eq_none.mp hp; omega
  | some wt =>
    obtain ⟨_, hw, ht⟩ := State.pop_eq_some hp
    have hslot : s.sp.val - 1 = j.val := by omega
    refine ⟨wt.2, ?_, by rw [ht]; exact hslot⟩
    simp only [hslot] at hw
    exact congrArg (fun w => some (w, wt.2)) hw

theorem exec_ret_of_pop {s t : State} {w : Word} (h : s.pop = some (w, t)) : exec .ret s = .next (t.jump w) := by
  simp only [exec, execRet, h]

theorem exec_ret_of_sp_zero {s : State} (h : s.sp.val = 0) :
    exec .ret s = .fault (.stackUnderflow s.fetchPc 0x00EE#16) := by
  simp only [exec, execRet, State.pop_eq_none.mpr h, raise, encode]

theorem changesOnly_pop_jump {s t : State} {w : Word} (h : s.pop = some (w, t)) :
    ChangesOnly (fun p => p = .sp ∨ p = .pc) s (t.jump w) :=
  ((changesOnly_pop h).mono (fun _ hp => .inl hp)).trans ((changesOnly_jump t w).mono (fun _ hp => .inr hp))

/-- Settles O38: a live slot is popped into `pc` by `pop` and `jump`, with nothing checking the target until the next fetch;
with no live slot the instruction raises. -/
theorem returnPopsThePc : Obligations.ReturnPopsThePc := by
  unfold Obligations.ReturnPopsThePc
  have hcode : EncodedAs .ret 0x00EE#16 := encodedAs_of_encode_eq rfl
  refine ⟨hcode, fun s j hsp => ?_, fun s hsp => exec_ret_of_sp_zero hsp, fun font s hpc hop hsp => ?_⟩
  · obtain ⟨t, hpop, htsp⟩ := State.pop_of_sp_succ hsp
    exact ⟨t.jump s.stack[j], exec_ret_of_pop hpop, rfl, htsp, changesOnly_pop_jump hpop,
      step_outOfBounds (s := t.jump s.stack[j])⟩
  · have hfault := exec_ret_of_sp_zero (s := s.advance) hsp
    rw [fetchPc_advance] at hfault
    exact perform_step_of_exec_fault hpc (hop ▸ hcode.2) hfault

end Sys2Proof.Machine
end

section
/-! PROOF. Jump (43_control_flow.md R162): one `jump` to the zero-extended address; a jump to its own address takes
back the advance. -/

namespace Sys2Proof.Machine

theorem encodedAs_jp (nnn : Addr) : EncodedAs (.jp nnn) (wordA 0x1000#16 nnn) :=
  encodedAs_of_encode_eq (encodeA_eq_wordA 0x1 nnn)

/-- A word below 4096 is the zero-extension of its low 12 bits. -/
theorem addrWord_setWidth {w : Word} (h : w.toNat < 4096) : addrWord (w.setWidth 12) = w := by
  apply BitVec.eq_of_toNat_eq
  rw [State.toNat_addrWord, BitVec.toNat_setWidth, Nat.mod_eq_of_lt h]

/-- The jump takes back the advance, so the state is the one before the step. -/
theorem step_jumpToSelf {s : State} (hpc : s.pc.toNat < 0xFFF) (hop : s.opcodeAtPc = 0x1000#16 ||| s.pc) :
    step s = .next s := by
  have hself : addrWord (s.pc.setWidth 12) = s.pc := addrWord_setWidth (by omega)
  have hword : s.opcodeAtPc = wordA 0x1000#16 (s.pc.setWidth 12) := by
    rw [hop]; exact congrArg (0x1000#16 ||| ·) hself.symm
  have hdecode : decodeWord s.opcodeAtPc = .ok (.jp (s.pc.setWidth 12)) := hword ▸ (encodedAs_jp _).2
  calc step s
      _ = exec (.jp (s.pc.setWidth 12)) s.advance := step_of_decode hpc hdecode
      _ = .next (s.advance.jump (addrWord (s.pc.setWidth 12))) := rfl
      _ = .next (s.advance.jump s.pc) := by rw [hself]
      _ = .next s := rfl

/-- Settles O39: the instruction is the one write of `pc`; at 0xFFF the next fetch fails, and a jump to its own address
takes back the advance. -/
theorem jumpSetsThePc : Obligations.JumpSetsThePc := by
  unfold Obligations.JumpSetsThePc
  refine ⟨fun nnn => ⟨encodedAs_jp nnn, fun s => ?_⟩, fun s => step_jumpToSelf⟩
  refine ⟨s.jump (addrWord nnn), rfl, State.toNat_addrWord nnn, changesOnly_jump s _, fun hend => ?_⟩
  subst hend
  exact step_outOfBounds (Nat.le_refl 0xFFF)

end Sys2Proof.Machine
end

section
/-! PROOF. Call (43_control_flow.md R163, 60_exceptions.md R203): a push of the advanced `pc`, then a jump. -/

namespace Sys2Proof.Machine

theorem encodedAs_call (nnn : Addr) : EncodedAs (.call nnn) (wordA 0x2000#16 nnn) :=
  encodedAs_of_encode_eq (encodeA_eq_wordA 0x2 nnn)

/-- With SP = j below 16 the push writes slot j. -/
theorem State.push_of_sp_eq {s : State} {j : Fin 16} (w : Word) (h : s.sp.val = j.val) :
    ∃ t, s.push w = some t ∧ t.stack[j] = w ∧ t.sp.val = j.val + 1 := by
  cases hp : s.push w with
  | none => have := State.push_eq_none.mp hp; omega
  | some t =>
    obtain ⟨_, rfl⟩ := State.push_eq_some hp
    exact ⟨_, rfl, by simp [h], by simp [h]⟩

theorem exec_call_of_push {nnn : Addr} {s t : State} (h : s.push s.pc = some t) :
    exec (.call nnn) s = .next (t.jump (addrWord nnn)) := by
  simp only [exec, execCall, h]

theorem exec_call_of_full {nnn : Addr} {s : State} (h : s.sp.val = 16) :
    exec (.call nnn) s = .fault (.stackOverflow s.fetchPc (wordA 0x2000#16 nnn)) := by
  simp only [exec, execCall, State.push_eq_none.mpr h, raise, (encodedAs_call nnn).1]

theorem changesOnly_push_jump {s t : State} {j : Fin 16} {w : Word} (target : Word) (hsp : s.sp.val = j.val)
    (h : s.push w = some t) : ChangesOnly (fun p => p = .sp ∨ p = .pc ∨ p = .slot j) s (t.jump target) := by
  refine ((changesOnly_push h).mono fun p hp => ?_).trans ((changesOnly_jump t target).mono fun _ hp => .inr (.inl hp))
  rcases hp with hp | ⟨k, hk, hp⟩
  · exact .inl hp
  · exact .inr (.inr (hp.trans (congrArg Part.slot (Fin.ext (hk.trans hsp)))))

/-- Settles O40: with a free slot the instruction is `push` and `jump`; with none it raises before either. -/
theorem callPushesTheReturnAddress : Obligations.CallPushesTheReturnAddress := by
  unfold Obligations.CallPushesTheReturnAddress
  refine ⟨encodedAs_call, fun nnn s j hsp => ?_, fun nnn s hsp => exec_call_of_full hsp,
    fun font nnn s hpc hop hsp => ?_⟩
  · obtain ⟨t, hpush, hslot, htsp⟩ := State.push_of_sp_eq s.pc hsp
    exact ⟨t.jump (addrWord nnn), exec_call_of_push hpush, hslot, htsp, State.toNat_addrWord nnn,
      changesOnly_push_jump _ hsp hpush⟩
  · have hfault := exec_call_of_full (nnn := nnn) (s := s.advance) hsp
    rw [fetchPc_advance] at hfault
    exact perform_step_of_exec_fault hpc (hop ▸ (encodedAs_call nnn).2) hfault

end Sys2Proof.Machine
end

section
/-! PROOF. The skips on registers (43_control_flow.md R164 to R167): each is one `skipIf` of a comparison. -/

namespace Sys2Proof.Machine

/-- An instruction that is one `skipIf` moves `pc` past the next opcode exactly under its condition, and writes nothing
else. -/
theorem exec_skipIf {i : Instr} {s : State} {taken : Bool} {P : Prop} [Decidable P]
    (hexec : exec i s = .next (s.skipIf taken)) (htaken : taken = true ↔ P) :
    ∃ t, exec i s = .next t ∧ t.pc = (if P then s.pc + 2#16 else s.pc) ∧ ChangesOnly (fun p => p = .pc) s t := by
  refine ⟨s.skipIf taken, hexec, ?_, changesOnly_skipIf s taken⟩
  rw [State.skipIf_pc]
  exact if_congr htaken rfl rfl

/-- Families 0x5 and 0x9 have no instruction whose low nibble is not 0 (30_encoding.md R76). -/
theorem undefinedWord_encodeXYN {f : Nibble} (x y : Nibble) {n : Nibble} (hf : f = 0x5#4 ∨ f = 0x9#4) (hn : n ≠ 0#4) :
    UndefinedWord (encodeXYN f x y n) := by
  unfold UndefinedWord
  rcases hf with rfl | rfl
  · simp [decodeWord, hn]
  · simp [decodeWord, hn]

/-- Settles O42: the two instructions are skips on `V[x] = kk` and on its negation. -/
theorem immediateSkipsCompareVx : Obligations.ImmediateSkipsCompareVx := by
  unfold Obligations.ImmediateSkipsCompareVx
  intro x kk
  have hse : encode (.seImm x kk) = wordXK 0x3000#16 x kk := encodeXK_eq_wordXK 0x3 x kk
  have hsne : encode (.sneImm x kk) = wordXK 0x4000#16 x kk := encodeXK_eq_wordXK 0x4 x kk
  exact ⟨encodedAs_of_encode_eq hse, encodedAs_of_encode_eq hsne, fun _ =>
    ⟨exec_skipIf rfl beq_iff_eq, exec_skipIf rfl bne_iff_ne⟩⟩

/-- Settles O43: the two instructions are skips on `V[x] = V[y]` and on its negation; the other words of their families
fail the decoder's test of the low nibble. -/
theorem registerSkipsCompareVxAndVy : Obligations.RegisterSkipsCompareVxAndVy := by
  unfold Obligations.RegisterSkipsCompareVxAndVy
  intro x y
  have hse : encode (.seReg x y) = wordXY 0x5000#16 x y := encodeXYN_eq_wordXY 0x5 x y 0x0
  have hsne : encode (.sneReg x y) = wordXY 0x9000#16 x y := encodeXYN_eq_wordXY 0x9 x y 0x0
  refine ⟨encodedAs_of_encode_eq hse, encodedAs_of_encode_eq hsne, fun n hn => ⟨?_, ?_⟩, fun _ =>
    ⟨exec_skipIf rfl beq_iff_eq, exec_skipIf rfl bne_iff_ne⟩⟩
  · have hword : encodeXYN 0x5 x y n = wordXYN 0x5000#16 x y n := encodeXYN_eq_wordXYN 0x5 x y n
    exact hword ▸ undefinedWord_encodeXYN x y (.inl rfl) hn
  · have hword : encodeXYN 0x9 x y n = wordXYN 0x9000#16 x y n := encodeXYN_eq_wordXYN 0x9 x y n
    exact hword ▸ undefinedWord_encodeXYN x y (.inr rfl) hn

end Sys2Proof.Machine
end

section
/-! PROOF. The moves between a register and a timer (44_timer_input_random.md R183, R185, R186): each is one write, and the
host's tick then counts the timer down (60_exceptions.md R212). -/

namespace Sys2Proof.Machine

theorem toNat_tick_dt (s : State) : (tick s).dt.toNat = s.dt.toNat - 1 := toNat_countDown s.dt

theorem toNat_tick_st (s : State) : (tick s).st.toNat = s.st.toNat - 1 := toNat_countDown s.st

/-- Settles O47: the instruction is the one write `V[x] <- DT`, and a register write leaves DT and the rest alone. -/
theorem delayTimerIsReadIntoVx : Obligations.DelayTimerIsReadIntoVx := by
  unfold Obligations.DelayTimerIsReadIntoVx
  intro x
  have hword : encode (.ldVxDt x) = wordX 0xF007#16 x := encodeXK_eq_wordX 0xF x 0x07
  exact ⟨encodedAs_of_encode_eq hword, fun s =>
    ⟨s.writeV x s.dt, rfl, State.readV_writeV_self s x s.dt, changesOnly_writeV s x s.dt⟩⟩

/-- Settles O49: each instruction is the one write of its timer, whose value the next tick takes down by one, stopping
at 0. -/
theorem timersAreSetFromVx : Obligations.TimersAreSetFromVx := by
  unfold Obligations.TimersAreSetFromVx
  intro x
  have hdt : encode (.ldDtVx x) = wordX 0xF015#16 x := encodeXK_eq_wordX 0xF x 0x15
  have hst : encode (.ldStVx x) = wordX 0xF018#16 x := encodeXK_eq_wordX 0xF x 0x18
  refine ⟨encodedAs_of_encode_eq hdt, encodedAs_of_encode_eq hst, fun s => ⟨?_, ?_⟩⟩
  · exact ⟨s.setDt (s.readV x), rfl, State.setDt_dt s _, toNat_tick_dt (s.setDt (s.readV x)), changesOnly_setDt s _⟩
  · exact ⟨s.setSt (s.readV x), rfl, State.setSt_st s _, toNat_tick_st (s.setSt (s.readV x)), changesOnly_setSt s _⟩

end Sys2Proof.Machine
end

section
/-! PROOF. The fetch past the end of memory (60_exceptions.md R201): only the fetch raises `OutOfBoundsFetch`, so with a
`pc` it accepts no later phase of the step does. -/

namespace Sys2Proof.Machine

/-- `OutOfBoundsFetch` is none of the errors an instruction ends in. -/
theorem exec_ne_outOfBoundsFetch (i : Instr) (s : State) (p : Word) : exec i s ≠ .fault (.outOfBoundsFetch p) := by
  intro h
  rcases exec_eq_fault h with ⟨_, _, hf⟩ | ⟨_, _, _, hf⟩ | ⟨_, _, _, hf⟩
  · cases hf
  · cases hf
  · cases hf

/-- With two bytes to fetch, the step ends in `UnknownOpcode` or as its instruction does. -/
theorem step_ne_outOfBoundsFetch {s : State} (hpc : s.pc.toNat < 0xFFF) (p : Word) :
    step s ≠ .fault (.outOfBoundsFetch p) := by
  rcases step_cases s with ⟨hend, _⟩ | ⟨_, _, hstep⟩ | ⟨_, i, _, hstep⟩
  · omega
  · rw [hstep]; simp
  · rw [hstep]; exact exec_ne_outOfBoundsFetch i s.advance p

/-- Settles O7: the two clauses are `step_outOfBounds` and `step_ne_outOfBoundsFetch`, with the bound on `pc + 1` read as one
on `pc`. -/
theorem fetchPastTheEndIsOutOfBounds : Obligations.FetchPastTheEndIsOutOfBounds := by
  unfold Obligations.FetchPastTheEndIsOutOfBounds
  exact fun s => ⟨fun hpast => step_outOfBounds (by omega), fun hin => step_ne_outOfBoundsFetch (by omega)⟩

end Sys2Proof.Machine
end

section
/-! PROOF. The decoder and the encoder undo each other (30_encoding.md R73 to R76): a word decodes to an instruction exactly
when it is that instruction's word. -/

namespace Sys2Proof.Machine

/-- Settles O2: the word by `decodeWord_encode`, the two bytes because they are put together again as that word. -/
theorem decodeOfEncodeIsTheInstruction : Obligations.DecodeOfEncodeIsTheInstruction := by
  unfold Obligations.DecodeOfEncodeIsTheInstruction
  intro i rest
  refine ⟨decodeWord_encode i, ?_⟩
  rw [decode_encodeBytes, decodeWord_encode]
  rfl

/-! ### A word rebuilt from its fields, the fixed ones given by their values -/

theorem encodeA_of_opF {w : Word} {f : Nibble} (hf : (opF w).toNat = f.toNat) : encodeA f (opNNN w) = w :=
  BitVec.eq_of_toNat_eq hf ▸ encodeA_fields w

theorem encodeXK_of_opF {w : Word} {f : Nibble} (hf : (opF w).toNat = f.toNat) : encodeXK f (opX w) (opKK w) = w :=
  BitVec.eq_of_toNat_eq hf ▸ encodeXK_fields w

theorem encodeXYN_of_opF {w : Word} {f : Nibble} (hf : (opF w).toNat = f.toNat) :
    encodeXYN f (opX w) (opY w) (opN w) = w :=
  BitVec.eq_of_toNat_eq hf ▸ encodeXYN_fields w

theorem encodeXYN_of_opF_opN {w : Word} {f n : Nibble} (hf : (opF w).toNat = f.toNat) (hn : (opN w).toNat = n.toNat) :
    encodeXYN f (opX w) (opY w) n = w :=
  BitVec.eq_of_toNat_eq hn ▸ encodeXYN_of_opF hf

theorem encodeXK_of_opF_opKK {w : Word} {f : Nibble} {kk : Byte} (hf : (opF w).toNat = f.toNat) (hkk : opKK w = kk) :
    encodeXK f (opX w) kk = w :=
  hkk ▸ encodeXK_of_opF hf

/-! ### The families that a further field selects in -/

theorem encode_of_decodeFamily0 {w : Word} {i : Instr} (h : decodeFamily0 w = .ok i) : encode i = w := by
  unfold decodeFamily0 at h
  split at h
  · next hw => cases h; exact hw.symm
  · split at h
    · next hw => cases h; exact hw.symm
    · cases h

theorem encode_of_decodeFamily8 {w : Word} {i : Instr} (hf : (opF w).toNat = 0x8) (h : decodeFamily8 w = .ok i) :
    encode i = w := by
  unfold decodeFamily8 at h
  split at h
  case h_10 => cases h
  all_goals next hn => cases h; exact encodeXYN_of_opF_opN hf hn

theorem encode_of_decodeFamilyE {w : Word} {i : Instr} (hf : (opF w).toNat = 0xE) (h : decodeFamilyE w = .ok i) :
    encode i = w := by
  unfold decodeFamilyE at h
  split at h
  · next hkk => cases h; exact encodeXK_of_opF_opKK hf hkk
  · split at h
    · next hkk => cases h; exact encodeXK_of_opF_opKK hf hkk
    · cases h

theorem encode_of_decodeFamilyF {w : Word} {i : Instr} (hf : (opF w).toNat = 0xF) (h : decodeFamilyF w = .ok i) :
    encode i = w := by
  unfold decodeFamilyF at h
  repeat' split at h
  case isFalse => cases h
  all_goals next hkk => cases h; exact encodeXK_of_opF_opKK hf hkk

/-- Encoding undoes decoding, by the family nibble: each arm of the decoder reads the fields its encoding is made of. -/
theorem encode_of_decodeWord {w : Word} {i : Instr} (h : decodeWord w = .ok i) : encode i = w := by
  unfold decodeWord at h
  split at h
  case h_1 hf => exact encode_of_decodeFamily0 h
  case h_9 hf => exact encode_of_decodeFamily8 hf h
  case h_15 hf => exact encode_of_decodeFamilyE hf h
  case h_16 hf => exact encode_of_decodeFamilyF hf h
  case h_2 | h_3 | h_11 | h_12 => next hf => cases h; exact encodeA_of_opF hf
  case h_4 | h_5 | h_7 | h_8 | h_13 => next hf => cases h; exact encodeXK_of_opF hf
  case h_14 hf => cases h; exact encodeXYN_of_opF hf
  case h_6 | h_10 =>
    next hf =>
    split at h
    · next hn => cases h; exact encodeXYN_of_opF_opN hf (congrArg BitVec.toNat hn)
    · cases h
  case h_17 => cases h

/-- Settles O3: the decoder's arm tells the fixed fields of the word, and the rest of them are the operands. -/
theorem encodeOfDecodeIsTheWord : Obligations.EncodeOfDecodeIsTheWord := by
  unfold Obligations.EncodeOfDecodeIsTheWord
  exact fun _ _ => encode_of_decodeWord

/-- The two round trips in one: each instruction has one word, and each defined word one instruction (R88). -/
theorem decodeWord_eq_ok {w : Word} {i : Instr} : decodeWord w = .ok i ↔ w = encode i :=
  ⟨fun h => (encode_of_decodeWord h).symm, fun h => h ▸ decodeWord_encode i⟩

/-- Settles O1: each word is a closed value, so the decoder computes. -/
theorem writtenOutWordsDecode : Obligations.WrittenOutWordsDecode := by
  unfold Obligations.WrittenOutWordsDecode
  decide

end Sys2Proof.Machine
end

section
/-! PROOF. The undefined words (30_encoding.md R76): which words the decoder refuses, family by family, and that no row of
the opcode map covers them. -/

namespace Sys2Proof.Machine

theorem decodeFamily0_eq_error {w : Word} :
    decodeFamily0 w = .error (.unknownOpcode w) ↔ w ≠ 0x00E0#16 ∧ w ≠ 0x00EE#16 := by
  unfold decodeFamily0
  split
  · next h => simp [h]
  · next h =>
    split
    · next h' => simp [h']
    · next h' => simp [h, h']

theorem decodeFamily8_eq_error {w : Word} :
    decodeFamily8 w = .error (.unknownOpcode w) ↔ (opN w).toNat ∈ [0x8, 0x9, 0xA, 0xB, 0xC, 0xD, 0xF] := by
  have hlt := (opN w).isLt
  unfold decodeFamily8
  split
  case h_10 => simp only [imp_false] at *; simp; omega
  all_goals next hn => simp [hn]

theorem decodeFamilyE_eq_error {w : Word} :
    decodeFamilyE w = .error (.unknownOpcode w) ↔ (opKK w).toNat ∉ [0x9E, 0xA1] := by
  unfold decodeFamilyE
  simp only [← BitVec.toNat_inj, BitVec.toNat_ofNat]
  split
  · next h => simp [h]
  · next h =>
    split
    · next h' => simp [h']
    · next h' => simp_all

theorem decodeFamilyF_eq_error {w : Word} :
    decodeFamilyF w = .error (.unknownOpcode w) ↔
      (opKK w).toNat ∉ [0x07, 0x0A, 0x15, 0x18, 0x1E, 0x29, 0x33, 0x55, 0x65] := by
  unfold decodeFamilyF
  simp only [← BitVec.toNat_inj, BitVec.toNat_ofNat]
  repeat' split
  case isFalse => simp_all
  all_goals next h => simp [h]

/-- Settles O4: the decoder refuses a word in the families that a further field selects in, each under its own condition,
and nowhere else. -/
theorem undefinedWordsAreExactlyTheListed : Obligations.UndefinedWordsAreExactlyTheListed := by
  unfold Obligations.UndefinedWordsAreExactlyTheListed
  intro w
  unfold UndefinedWord decodeWord
  rw [← toNat_opF, ← toNat_opN, ← toNat_opKK]
  split
  case h_1 hf => simp [hf, decodeFamily0_eq_error]
  case h_9 hf => simp [hf, decodeFamily8_eq_error]
  case h_15 hf => simp [hf, decodeFamilyE_eq_error]
  case h_16 hf => simp [hf, decodeFamilyF_eq_error]
  case h_6 | h_10 =>
    next hf =>
    split
    · next hn => simp [hf, hn]
    · next hn => simpa [hf, BitVec.toNat_eq] using hn
  case h_17 =>
    have hlt := (opF w).isLt
    simp only [imp_false] at *
    omega
  all_goals next hf => simp [hf]

/-- The decoder's only error on a word is the word's own `UnknownOpcode` (R75). -/
theorem undefinedWord_of_decodeWord_eq_error {w : Word} {e : DecodeError} (h : decodeWord w = .error e) :
    UndefinedWord w := by
  suffices he : e = .unknownOpcode w by unfold UndefinedWord; rw [h, he]
  unfold decodeWord decodeFamily0 decodeFamily8 decodeFamilyE decodeFamilyF at h
  repeat' split at h
  all_goals cases h
  all_goals rfl

theorem toNat_opKK_eq_nibbles (w : Word) : (opKK w).toNat = (opY w).toNat * 16 + (opN w).toNat := by
  rw [toNat_opKK, toNat_opY, toNat_opN]; omega

theorem toNat_eq_nibbles (w : Word) :
    w.toNat = (opF w).toNat * 4096 + (opX w).toNat * 256 + (opY w).toNat * 16 + (opN w).toNat := by
  rw [toNat_opF, toNat_opX, toNat_opY, toNat_opN]; omega

/-- An undefined word is covered by no row: each row of its family fixes nibbles the word does not have. -/
theorem wellFormedWord_of_undefinedWord {w : Word} (h : UndefinedWord w) : wellFormedWord w = false := by
  have hlisted := (undefinedWordsAreExactlyTheListed w).mp h
  rw [← toNat_opF, ← toNat_opN, ← toNat_opKK, toNat_opKK_eq_nibbles] at hlisted
  have hw := toNat_eq_nibbles w
  simp only [wellFormedWord, opcodeTable, opcodeRows0to7, opcodeRows8, opcodeRows9toE, opcodeRowsF]
  rcases hlisted with ⟨hf, hcls, hret⟩ | ⟨hf, hsel⟩ | ⟨hf, hsel⟩ | ⟨hf, hsel⟩ | ⟨hf, hsel⟩ | ⟨hf, hsel⟩
  case inl =>
    simp only [ne_eq, ← BitVec.toNat_inj, BitVec.toNat_ofNat] at hcls hret
    simp [covers_iff_fields, nibbleFits, ← BitVec.toNat_inj, hf]
    omega
  all_goals
    simp [covers_iff_fields, nibbleFits, ← BitVec.toNat_inj, hf] at hsel ⊢
    omega

/-- A word the decoder accepts is its instruction's word, and that one is covered by one row. -/
theorem rows_of_decodeWord {w : Word} {i : Instr} (h : decodeWord w = .ok i) :
    (opcodeTable.filter (fun r => r.covers w)).map (fun r => r.mnemonic) = [i.mnemonic] :=
  encode_of_decodeWord h ▸ oneRow i

theorem wellFormedWord_of_decodeWord {w : Word} {i : Instr} (h : decodeWord w = .ok i) : wellFormedWord w = true := by
  have hrows := rows_of_decodeWord h
  have hne : opcodeTable.filter (fun r => r.covers w) ≠ [] := fun hnil => by simp [hnil] at hrows
  obtain ⟨r, hr⟩ := List.exists_mem_of_ne_nil _ hne
  exact List.any_eq_true.mpr ⟨r, List.mem_filter.mp hr⟩

/-- Settles O5: an accepted word has exactly its instruction's row (`oneRow`), a refused one is undefined and has none. -/
theorem decoderAgreesWithTheOpcodeMap : Obligations.DecoderAgreesWithTheOpcodeMap := by
  unfold Obligations.DecoderAgreesWithTheOpcodeMap
  refine fun w => ⟨⟨fun ⟨i, hi⟩ => wellFormedWord_of_decodeWord hi, fun hwf => ?_⟩, fun i => rows_of_decodeWord⟩
  cases hd : decodeWord w with
  | ok i => exact ⟨i, rfl⟩
  | error e =>
    rw [wellFormedWord_of_undefinedWord (undefinedWord_of_decodeWord_eq_error hd)] at hwf
    cases hwf

end Sys2Proof.Machine
end

section
/-! PROOF. What the five instructions that branch can do, said once, and the frame of all 34 from it. -/

namespace Sys2Proof.Machine

/-! ### What they did, when they completed -/

theorem exec_ret_next {s t : State} (h : exec .ret s = .next t) : ∃ w u, s.pop = some (w, u) ∧ t = u.jump w := by
  simp only [exec, execRet] at h
  split at h
  · cases h
  · next w u hp => cases h; exact ⟨w, u, hp, rfl⟩

theorem exec_call_next {nnn : Addr} {s t : State} (h : exec (.call nnn) s = .next t) :
    ∃ u, s.push s.pc = some u ∧ t = u.jump (addrWord nnn) := by
  simp only [exec, execCall] at h
  split at h
  · cases h
  · next u hp => cases h; exact ⟨u, hp, rfl⟩

theorem exec_skp_next {x : Nibble} {s t : State} (h : exec (.skp x) s = .next t) :
    ∃ k, s.keyIndex x = some k ∧ t = s.skipIf (s.keyDown k) := by
  simp only [exec, execSkp] at h
  split at h
  · cases h
  · next k hk => cases h; exact ⟨k, hk, rfl⟩

theorem exec_sknp_next {x : Nibble} {s t : State} (h : exec (.sknp x) s = .next t) :
    ∃ k, s.keyIndex x = some k ∧ t = s.skipIf (!s.keyDown k) := by
  simp only [exec, execSknp] at h
  split at h
  · cases h
  · next k hk => cases h; exact ⟨k, hk, rfl⟩

theorem exec_ldVxK_next {x : Nibble} {s t : State} (h : exec (.ldVxK x) s = .next t) :
    (s.lowestKeyDown = none ∧ t = s.jump s.fetchPc) ∨
      ∃ k, s.lowestKeyDown = some k ∧ t = s.writeV x (k.setWidth 8) := by
  simp only [exec, execLdVxK] at h
  split at h
  · next hk => cases h; exact .inl ⟨hk, rfl⟩
  · next k hk => cases h; exact .inr ⟨k, hk, rfl⟩

/-! ### The key instructions, by what the keypad and `V[x]` say -/

theorem exec_skp_of_key {x k : Nibble} {s : State} (h : s.keyIndex x = some k) :
    exec (.skp x) s = .next (s.skipIf (s.keyDown k)) := by
  simp only [exec, execSkp, h]

theorem exec_sknp_of_key {x k : Nibble} {s : State} (h : s.keyIndex x = some k) :
    exec (.sknp x) s = .next (s.skipIf (!s.keyDown k)) := by
  simp only [exec, execSknp, h]

theorem exec_skp_of_noKey {x : Nibble} {s : State} (h : 0xF < (s.readV x).toNat) :
    exec (.skp x) s = .fault (.invalidKeyIndex s.fetchPc (encode (.skp x)) (s.readV x)) := by
  simp only [exec, execSkp, State.keyIndex_eq_none.mpr h, raise]

theorem exec_sknp_of_noKey {x : Nibble} {s : State} (h : 0xF < (s.readV x).toNat) :
    exec (.sknp x) s = .fault (.invalidKeyIndex s.fetchPc (encode (.sknp x)) (s.readV x)) := by
  simp only [exec, execSknp, State.keyIndex_eq_none.mpr h, raise]

theorem exec_ldVxK_of_noKey {x : Nibble} {s : State} (h : s.lowestKeyDown = none) :
    exec (.ldVxK x) s = .next (s.jump s.fetchPc) := by
  simp only [exec, execLdVxK, h]

theorem exec_ldVxK_of_key {x k : Nibble} {s : State} (h : s.lowestKeyDown = some k) :
    exec (.ldVxK x) s = .next (s.writeV x (k.setWidth 8)) := by
  simp only [exec, execLdVxK, h]

/-! ### The frame of each instruction -/

theorem changesOnly_rnd (x : Nibble) (kk : Byte) (s : State) :
    ChangesOnly (fun p => p = .v x ∨ p = .draws) s (s.nextDraw.writeV x (s.rndByte &&& kk)) :=
  ((changesOnly_nextDraw s).mono fun _ h => .inr h).trans ((changesOnly_writeV _ x _).mono fun _ h => .inl h)

theorem changesOnly_draw (s : State) (fb : Framebuffer) (b : Byte) :
    ChangesOnly (fun p => p = .v 0xF#4 ∨ ∃ px py, p = .cell px py) s ((s.setFb fb).writeV 0xF#4 b) :=
  ((changesOnly_setFb s fb).mono fun _ h => .inr h).trans ((changesOnly_writeV _ _ b).mono fun _ h => .inl h)

theorem changesOnly_storeRegisters (s : State) (x : Nibble) :
    ChangesOnly (storedAt (s.atI 0) (x.toNat + 1)) s (s.storeBytes (s.atI 0) (s.readRange x)) :=
  State.length_readRange s x ▸ changesOnly_storeBytes s (s.atI 0) (s.readRange x)

/-- Every instruction leaves alone whatever it does not write. -/
theorem exec_changesOnly {i : Instr} {s t : State} (h : exec i s = .next t) : ChangesOnly (writes i s) s t := by
  cases i
  case ret => obtain ⟨w, u, hp, rfl⟩ := exec_ret_next h; exact changesOnly_pop_jump hp
  case call nnn =>
    obtain ⟨u, hp, rfl⟩ := exec_call_next h
    refine ((changesOnly_push hp).mono fun p hw => ?_).trans ((changesOnly_jump u _).mono fun _ hw => .inr (.inl hw))
    exact hw.imp_right .inr
  case skp x => obtain ⟨k, _, rfl⟩ := exec_skp_next h; exact changesOnly_skipIf s _
  case sknp x => obtain ⟨k, _, rfl⟩ := exec_sknp_next h; exact changesOnly_skipIf s _
  case ldVxK x =>
    rcases exec_ldVxK_next h with ⟨_, rfl⟩ | ⟨k, _, rfl⟩
    · exact (changesOnly_jump s _).mono fun _ hw => .inr hw
    · exact (changesOnly_writeV s x _).mono fun _ hw => .inl hw
  case cls => cases h; exact changesOnly_setFb s _
  case jp | jpV0 => cases h; exact changesOnly_jump s _
  case seImm | sneImm | seReg | sneReg => cases h; exact changesOnly_skipIf s _
  case ldImm | addImm | ldReg | orReg | andReg | xorReg | ldVxDt => cases h; exact changesOnly_writeV s _ _
  case addReg | sub | shr | subn | shl => cases h; exact changesOnly_writeFlagThenResult s _ _ _
  case ldI | addI | ldF => cases h; exact changesOnly_setI s _
  case rnd x kk => cases h; exact changesOnly_rnd x kk s
  case drw x y n => cases h; exact changesOnly_draw s _ _
  case ldDtVx => cases h; exact changesOnly_setDt s _
  case ldStVx => cases h; exact changesOnly_setSt s _
  case ldB x => cases h; exact changesOnly_storeBytes s _ (decimalDigits (s.readV x))
  case ldMemVx x => cases h; exact changesOnly_storeRegisters s x
  case ldVxMem x => cases h; exact changesOnly_writeRange s x _

/-- Settles O10: the frame of each instruction is that of the updates it is made of. -/
theorem everyInstructionWritesOnlyItsTargets : Obligations.EveryInstructionWritesOnlyItsTargets := by
  unfold Obligations.EveryInstructionWritesOnlyItsTargets
  exact fun _ _ _ => exec_changesOnly

end Sys2Proof.Machine
end

section
/-! PROOF. The invariant (10_state.md R36): an instruction moves I, `pc` and the stack only where its frame lets it, so each
bound is checked for the few instructions that write the piece; then every operation of the host, and every schedule. -/

namespace Sys2Proof.Machine

/-! ### What an instruction leaves of the bounds -/

/-- The writers of I load an address or reduce a sum modulo 4096, or point at a glyph. -/
theorem exec_index_le {i : Instr} {s t : State} (h : exec i s = .next t) (hs : s.i.toNat ≤ 0xFFF) :
    t.i.toNat ≤ 0xFFF := by
  by_cases hw : writes i s .i
  · cases i
    case ldI nnn => cases h; have := nnn.isLt; rw [State.setI_i, State.toNat_addrWord]; omega
    case addI x => cases h; rw [State.setI_i, State.toNat_indexPlus]; omega
    case ldF x => cases h; have := (s.readV x).isLt; rw [State.setI_i, State.toNat_glyphAddress]; omega
    all_goals simp [writes, storedAt] at hw
  · have hi : t.i = s.i := exec_changesOnly h .i hw
    rwa [hi]

/-- The stack's writers pop a slot or push the return address `pc`. -/
theorem exec_slots_le {i : Instr} {s t : State} (h : exec i s = .next t) (hpc : s.pc.toNat ≤ 0x1000)
    (hs : ∀ j : Fin 16, j.val < s.sp.val → s.stack[j].toNat ≤ 0x1000) :
    ∀ j : Fin 16, j.val < t.sp.val → t.stack[j].toNat ≤ 0x1000 := by
  by_cases hw : writes i s .sp
  · cases i
    case ret =>
      obtain ⟨w, u, hp, rfl⟩ := exec_ret_next h
      obtain ⟨_, _, rfl⟩ := State.pop_eq_some hp
      exact fun j hj => hs j (Nat.lt_of_lt_of_le hj (Nat.sub_le _ _))
    case call nnn =>
      obtain ⟨u, hp, rfl⟩ := exec_call_next h
      obtain ⟨hlt, rfl⟩ := State.push_eq_some hp
      intro j hj
      by_cases he : s.sp.val = j.val
      · simpa [he] using hpc
      · have hslot := hs j (by simp at hj; omega)
        simpa [Vector.getElem_set_ne, he] using hslot
    all_goals simp [writes, storedAt] at hw
  · have hsp : t.sp = s.sp := exec_changesOnly h .sp hw
    intro j hj
    have hslot : t.stack[j] = s.stack[j] := by
      refine exec_changesOnly h (.slot j) (fun hj => hw ?_)
      cases i
      case call => exact .inl rfl
      all_goals simp [writes, storedAt] at hj
    rw [hslot]
    exact hs j (hsp ▸ hj)

/-- The farthest `pc` is that of Bnnn, `0xFFF + 0xFF`; a skip gets to 0x1002 and a return to a live slot. -/
theorem exec_pc_le {i : Instr} {s t : State} (h : exec i s = .next t) (hpc : s.pc.toNat ≤ 0x1000)
    (hfetch : s.fetchPc.toNat ≤ 0x1000) (hs : ∀ j : Fin 16, j.val < s.sp.val → s.stack[j].toNat ≤ 0x1000) :
    t.pc.toNat ≤ 0x10FE := by
  have haddr (nnn : Addr) : (addrWord nnn).toNat ≤ 0x10FE := by
    have := nnn.isLt
    rw [State.toNat_addrWord]; omega
  have hskip (taken : Bool) : (s.skipIf taken).pc.toNat ≤ 0x10FE := by
    rw [State.skipIf_pc]
    split
    · rw [BitVec.toNat_add, BitVec.toNat_ofNat]; omega
    · omega
  by_cases hw : writes i s .pc
  · cases i
    case ret =>
      obtain ⟨w, u, hp, rfl⟩ := exec_ret_next h
      obtain ⟨hpos, rfl, _⟩ := State.pop_eq_some hp
      have hsp := s.sp.isLt
      exact (hs ⟨s.sp.val - 1, by omega⟩ (Nat.sub_lt hpos Nat.one_pos)).trans (by decide)
    case jp nnn => cases h; exact haddr nnn
    case call nnn => obtain ⟨u, _, rfl⟩ := exec_call_next h; exact haddr nnn
    case seImm | sneImm | seReg | sneReg => cases h; exact hskip _
    case jpV0 nnn =>
      cases h
      have h1 := nnn.isLt
      have h2 := (s.readV 0x0#4).isLt
      rw [State.jump_pc, State.toNat_indexedTarget]; omega
    case skp x => obtain ⟨k, _, rfl⟩ := exec_skp_next h; exact hskip _
    case sknp x => obtain ⟨k, _, rfl⟩ := exec_sknp_next h; exact hskip _
    case ldVxK x =>
      rcases exec_ldVxK_next h with ⟨_, rfl⟩ | ⟨k, _, rfl⟩
      · exact hfetch.trans (by decide)
      · exact hpc.trans (by decide)
    all_goals simp [writes, storedAt] at hw
  · have hsame : t.pc = s.pc := exec_changesOnly h .pc hw
    rw [hsame]; omega

/-- A step that completes keeps the invariant: the fetch accepted `pc`, so the advanced one is at most 0x1000. -/
theorem step_inv {s t : State} (hs : s.Inv) (h : step s = .next t) : t.Inv := by
  obtain ⟨hpc, i, _, hx⟩ := step_next h
  have hadvanced : s.advance.pc.toNat ≤ 0x1000 := by
    rw [State.advance_pc, BitVec.toNat_add, BitVec.toNat_ofNat]; omega
  have hfetch : s.advance.fetchPc.toNat ≤ 0x1000 := by rw [fetchPc_advance]; omega
  exact {
    index := exec_index_le hx hs.index
    depth := Nat.le_of_lt_succ t.sp.isLt
    slots := exec_slots_le hx hadvanced hs.slots
    counter := exec_pc_le hx hadvanced hfetch hs.slots
    memory := wf_exec (s := s.advance) hs.memory hx }

/-- Settles O15: the bounds by the instruction's writers of I, `pc` and the stack, the canonical form by `wf_exec`. -/
theorem stepKeepsTheInvariant : Obligations.StepKeepsTheInvariant := by
  unfold Obligations.StepKeepsTheInvariant
  exact fun _ _ => step_inv

/-! ### The other operations of the host -/

theorem storeBytes_inv {s : State} (a : Nat) (bytes : List Byte) (h : s.Inv) : (s.storeBytes a bytes).Inv where
  index := by rw [State.storeBytes_i]; exact h.index
  depth := by rw [State.storeBytes_sp]; exact h.depth
  slots := by rw [State.storeBytes_sp, State.storeBytes_stack]; exact h.slots
  counter := by rw [State.storeBytes_pc]; exact h.counter
  memory := State.wf_storeBytes a bytes h.memory

theorem inv_reset : State.reset.Inv where
  index := by decide
  depth := by decide
  slots := fun _ h => absurd h (Nat.not_lt_zero _)
  counter := by decide
  memory := rfl

theorem withDraws_inv {s : State} (d : Nat) (h : s.Inv) : (s.withDraws d).Inv :=
  ⟨h.index, h.depth, h.slots, h.counter, h.memory⟩

theorem resetWith_inv (font : Font) (s : State) : (resetWith font s).Inv :=
  storeBytes_inv _ _ (withDraws_inv s.draws inv_reset)

theorem loadProgram_inv {bytes : List Byte} {s t : State} (hs : s.Inv) (h : loadProgram bytes s = .next t) : t.Inv := by
  unfold loadProgram at h
  split at h
  · cases h
  · cases h; exact storeBytes_inv _ _ hs

theorem apply_inv {font : Font} {op : HostOp} {s t : State} (hs : s.Inv) (h : op.apply font s = .next t) : t.Inv := by
  cases op with
  | reset => cases h; exact resetWith_inv font s
  | loadProgram bytes => exact loadProgram_inv hs h
  | step => exact step_inv hs h
  | tick => cases h; exact ⟨hs.index, hs.depth, hs.slots, hs.counter, hs.memory⟩
  | setKeypad k => cases h; exact ⟨hs.index, hs.depth, hs.slots, hs.counter, hs.memory⟩
  | readFramebuffer => cases h; exact hs
  | readTimers => cases h; exact hs

/-- The state an operation leaves: what it answered, or, where it answered nothing, the state before it (R8). -/
theorem perform_fst_cases (font : Font) (op : HostOp) (s : State) :
    op.apply font s = .next (op.perform font s).1 ∨ (op.perform font s).1 = s := by
  unfold HostOp.perform
  cases op.apply font s with
  | next t => exact .inl rfl
  | fault f => exact .inr rfl
  | refused r => exact .inr rfl

theorem perform_inv {font : Font} {op : HostOp} {s : State} (hs : s.Inv) : (op.perform font s).1.Inv := by
  rcases perform_fst_cases font op s with h | h
  · exact apply_inv hs h
  · rwa [h]

theorem performAll_inv {font : Font} (ops : List HostOp) {s : State} (hs : s.Inv) : (performAll font ops s).Inv := by
  induction ops generalizing s with
  | nil => exact hs
  | cons op ops ih => exact ih (perform_inv hs)

/-- Settles O16: a completed operation keeps the invariant, a failed one keeps the state. -/
theorem hostOperationsKeepTheInvariant : Obligations.HostOperationsKeepTheInvariant := by
  unfold Obligations.HostOperationsKeepTheInvariant
  exact fun _ _ _ => perform_inv

/-- Settles O17: the invariant holds of the listed values, and the font is stored as any bytes are. -/
theorem resetMeetsTheInvariant : Obligations.ResetMeetsTheInvariant := by
  unfold Obligations.ResetMeetsTheInvariant
  exact ⟨inv_reset, resetWith_inv⟩

/-- Settles O18: the invariant by induction over the schedule (`performAll_inv`), the error because the fetch checks `pc`
before anything else. -/
theorem reachableStatesStayInBounds : Obligations.ReachableStatesStayInBounds := by
  unfold Obligations.ReachableStatesStayInBounds
  rintro font s ⟨before, ops, rfl⟩
  exact ⟨performAll_inv ops (resetWith_inv font before), fun hend => perform_of_fault (step_outOfBounds hend)⟩

/-! ### Failed operations -/

theorem state_of_perform_err {font : Font} {op : HostOp} {s t : State} {f : Fault}
    (h : op.perform font s = (t, .err f)) : t = s := by
  unfold HostOp.perform at h
  split at h
  · cases h
  · cases h; rfl
  · cases h

/-- Settles O14: the state returned is the one before, so performing the operation again is performing it on the same
state. -/
theorem aFailedOperationChangesNothing : Obligations.AFailedOperationChangesNothing := by
  unfold Obligations.AFailedOperationChangesNothing
  intro font op s t f h
  obtain rfl := state_of_perform_err h
  exact ⟨rfl, h⟩

end Sys2Proof.Machine
end

section
/-! PROOF. The errors of a step (60_exceptions.md R200, R207): exactly those of the fetch, of the decoder and of the four
instructions that raise. -/

namespace Sys2Proof.Machine

/-! ### The errors of an instruction -/

/-- `exec_eq_fault` with its converse: an instruction ends in an error exactly in these cases. -/
theorem exec_eq_fault_iff {i : Instr} {s : State} {f : Fault} :
    exec i s = .fault f ↔
      (i = .ret ∧ s.sp.val = 0 ∧ f = .stackUnderflow s.fetchPc (encode i)) ∨
      (∃ nnn, i = .call nnn ∧ s.sp.val = 16 ∧ f = .stackOverflow s.fetchPc (encode i)) ∨
      (∃ x, (i = .skp x ∨ i = .sknp x) ∧ 0xF < (s.readV x).toNat ∧
        f = .invalidKeyIndex s.fetchPc (encode i) (s.readV x)) := by
  refine ⟨exec_eq_fault, ?_⟩
  rintro (⟨rfl, hsp, rfl⟩ | ⟨nnn, rfl, hsp, rfl⟩ | ⟨x, rfl | rfl, hx, rfl⟩)
  · exact exec_ret_of_sp_zero hsp
  · rw [(encodedAs_call nnn).1]; exact exec_call_of_full hsp
  · exact exec_skp_of_noKey hx
  · exact exec_sknp_of_noKey hx

/-- An instruction completes exactly when it does not raise, since none is refused. -/
theorem exec_completes_iff {i : Instr} {s : State} : (∃ t, exec i s = .next t) ↔ ∀ f, exec i s ≠ .fault f := by
  cases h : exec i s with
  | next t => simp
  | fault f => simp
  | refused r => exact absurd h (exec_ne_refused i s r)

/-- Settles O9: for each instruction `exec_eq_fault_iff` leaves its own row of errors, or none. -/
theorem everyInstructionCompletesElsewhere : Obligations.EveryInstructionCompletesElsewhere := by
  unfold Obligations.EveryInstructionCompletesElsewhere
  intro i s
  simp only [exec_completes_iff, ne_eq, exec_eq_fault_iff]
  cases i <;> simp

/-! ### The errors of a step -/

theorem undefinedWord_iff {w : Word} : UndefinedWord w ↔ ∃ e, decodeWord w = .error e :=
  ⟨fun h => ⟨_, h⟩, fun ⟨_, h⟩ => undefinedWord_of_decodeWord_eq_error h⟩

/-- A step ends in an error of its fetch, of its decode or of its instruction. -/
theorem step_eq_fault_iff {s : State} {f : Fault} :
    step s = .fault f ↔
      (0xFFF ≤ s.pc.toNat ∧ f = .outOfBoundsFetch s.pc) ∨
      (s.pc.toNat < 0xFFF ∧ UndefinedWord s.opcodeAtPc ∧ f = .unknownOpcode s.opcodeAtPc s.pc) ∨
      (s.pc.toNat < 0xFFF ∧ ∃ i, s.opcodeAtPc = encode i ∧ exec i s.advance = .fault f) := by
  rcases step_cases s with ⟨hpc, hstep⟩ | ⟨hpc, hundef, hstep⟩ | ⟨hpc, i, hi, hstep⟩
  · simp [hstep, hpc, Nat.not_lt.mpr hpc, eq_comm]
  · have hnone : ∀ i, s.opcodeAtPc ≠ encode i := by
      intro i hi
      obtain ⟨e, he⟩ := hundef
      rw [decodeWord_eq_ok.mpr hi] at he
      cases he
    simp [hstep, hpc, Nat.not_le.mpr hpc, undefinedWord_iff.mpr hundef, hnone, eq_comm]
  · have hdef : ¬ UndefinedWord s.opcodeAtPc := by
      unfold UndefinedWord
      rw [hi]
      simp
    have honly : ∀ j, s.opcodeAtPc = encode j ↔ i = j := by
      intro j
      rw [← decodeWord_eq_ok, hi, Except.ok.injEq]
    simp [hstep, hpc, Nat.not_le.mpr hpc, hdef, honly]

theorem step_ne_refused (s : State) (r : Refusal) : step s ≠ .refused r := by
  rcases step_cases s with ⟨_, hstep⟩ | ⟨_, _, hstep⟩ | ⟨_, i, _, hstep⟩
  · simp [hstep]
  · simp [hstep]
  · rw [hstep]; exact exec_ne_refused i s.advance r

theorem encode_skp (x : Nibble) : encode (.skp x) = wordX 0xE09E#16 x := encodeXK_eq_wordX 0xE x 0x9E

theorem encode_sknp (x : Nibble) : encode (.sknp x) = wordX 0xE0A1#16 x := encodeXK_eq_wordX 0xE x 0xA1

/-- Settles O8: of the three places an error comes from, the instruction's are read off `exec_eq_fault_iff`, with the
recorded address and opcode those of the fetch. -/
theorem stepErrorsAreExactlyTheTaxonomy : Obligations.StepErrorsAreExactlyTheTaxonomy := by
  unfold Obligations.StepErrorsAreExactlyTheTaxonomy
  refine fun s => ⟨fun f => ?_, step_ne_refused s⟩
  rw [step_eq_fault_iff]
  refine or_congr_right (or_congr_right ?_)
  simp only [exec_eq_fault_iff, fetchPc_advance, State.advance_sp, State.advance_readV]
  constructor
  · rintro ⟨hpc, i, hop, ⟨rfl, hsp, rfl⟩ | ⟨nnn, rfl, hsp, rfl⟩ | ⟨x, hi, hx, rfl⟩⟩
    · exact .inr (.inl ⟨hpc, hop, hsp, by rw [hop]⟩)
    · exact .inl ⟨hpc, ⟨nnn, hop.trans (encodedAs_call nnn).1⟩, hsp, by rw [hop]⟩
    · refine .inr (.inr ⟨hpc, x, ?_, hx, by rw [hop]⟩)
      rcases hi with rfl | rfl
      · exact .inl (hop.trans (encode_skp x))
      · exact .inr (hop.trans (encode_sknp x))
  · rintro (⟨hpc, ⟨nnn, hop⟩, hsp, rfl⟩ | ⟨hpc, hop, hsp, rfl⟩ | ⟨hpc, x, hop | hop, hx, rfl⟩)
    · rw [← (encodedAs_call nnn).1] at hop
      exact ⟨hpc, .call nnn, hop, .inr (.inl ⟨nnn, rfl, hsp, by rw [hop]⟩)⟩
    · exact ⟨hpc, .ret, hop, .inl ⟨rfl, hsp, by rw [hop]; rfl⟩⟩
    · rw [← encode_skp] at hop
      exact ⟨hpc, .skp x, hop, .inr (.inr ⟨x, .inl rfl, hx, by rw [hop]⟩)⟩
    · rw [← encode_sknp] at hop
      exact ⟨hpc, .sknp x, hop, .inr (.inr ⟨x, .inr rfl, hx, by rw [hop]⟩)⟩

/-- Settles O13: past the end the fetch fails by `pc` alone; otherwise the two opcodes are equal, and every condition and
record of the taxonomy (O8) is about them, `pc`, SP and the registers. -/
theorem errorsDependOnPcMemorySpAndRegisters : Obligations.ErrorsDependOnPcMemorySpAndRegisters := by
  unfold Obligations.ErrorsDependOnPcMemorySpAndRegisters
  intro s s' f hpc hmem hsp hv h
  rcases Nat.lt_or_ge s.pc.toNat 0xFFF with hlt | hend
  · have hop : s'.opcodeAtPc = s.opcodeAtPc := by
      rw [opcodeAtPc_eq hlt, opcodeAtPc_eq (hpc ▸ hlt), hpc, hmem, hmem]
    rw [(stepErrorsAreExactlyTheTaxonomy s').1, hpc, hsp, hop]
    simpa only [hv] using ((stepErrorsAreExactlyTheTaxonomy s).1 f).mp h
  · rw [step_outOfBounds (hpc ▸ hend), hpc, ← step_outOfBounds hend, h]

/-! ### The step that runs an instruction -/

/-- Settles O6: the word of the two bytes is the one fetched. -/
theorem stepRunsTheDecodedInstruction : Obligations.StepRunsTheDecodedInstruction := by
  unfold Obligations.StepRunsTheDecodedInstruction
  intro s op i hpc hop hi
  have hword : s.opcodeAtPc = op := by
    apply BitVec.eq_of_toNat_eq
    rw [opcodeAtPc_eq hpc, toNat_wordOfBytes, hop, Nat.mul_comm]
  exact step_of_decode hpc (hword ▸ hi)

end Sys2Proof.Machine
end

section
/-! PROOF. Who reads and writes the sound timer (10_state.md R28) and the model's draw counter (log entry 2): Fx18 writes the
one, Cxkk reads and writes the other, and with other values in both every other instruction does the same. -/

namespace Sys2Proof.Machine

/-- The same state with other values in ST and in the draw counter. -/
def State.withStDraws (s : State) (b : Byte) (d : Nat) : State := (s.setSt b).withDraws d

theorem State.withStDraws_st_self (s : State) (d : Nat) : s.withStDraws s.st d = s.withDraws d := rfl

theorem State.withStDraws_draws_self (s : State) (b : Byte) : s.withStDraws b s.draws = s.setSt b := rfl

theorem State.pop_withStDraws {s u : State} {w : Word} (b : Byte) (d : Nat) (h : s.pop = some (w, u)) :
    (s.withStDraws b d).pop = some (w, u.withStDraws b d) := by
  obtain ⟨hpos, rfl, rfl⟩ := State.pop_eq_some h
  exact dif_pos hpos

theorem State.push_withStDraws {s u : State} {w : Word} (b : Byte) (d : Nat) (h : s.push w = some u) :
    (s.withStDraws b d).push w = some (u.withStDraws b d) := by
  obtain ⟨hlt, rfl⟩ := State.push_eq_some h
  exact dif_pos hlt

theorem State.skipIf_withStDraws (s : State) (taken : Bool) (b : Byte) (d : Nat) :
    (s.withStDraws b d).skipIf taken = (s.skipIf taken).withStDraws b d := by
  cases taken
  · rfl
  · rfl

theorem State.storeBytes_withStDraws (s : State) (a : Nat) (bytes : List Byte) (b : Byte) (d : Nat) :
    (s.withStDraws b d).storeBytes a bytes = (s.storeBytes a bytes).withStDraws b d := by
  induction bytes generalizing s a with
  | nil => rfl
  | cons byte bytes ih => exact ih (s.memWrite a byte) (a + 1)

theorem exec_rnd (x : Nibble) (kk : Byte) (s : State) :
    exec (.rnd x kk) s = .next ((s.writeV x (Config.rnd s.draws &&& kk)).withDraws (s.draws + 1)) := rfl

/-- But for Cxkk and Fx18, an instruction neither reads nor writes ST and the draw counter. -/
theorem exec_withStDraws {i : Instr} {s t : State} (b : Byte) (d : Nat) (hrnd : ∀ x kk, i ≠ .rnd x kk)
    (hst : ∀ x, i ≠ .ldStVx x) (h : exec i s = .next t) : exec i (s.withStDraws b d) = .next (t.withStDraws b d) := by
  cases i
  case rnd x kk => exact absurd rfl (hrnd x kk)
  case ldStVx x => exact absurd rfl (hst x)
  case ret => obtain ⟨w, u, hp, rfl⟩ := exec_ret_next h; exact exec_ret_of_pop (State.pop_withStDraws b d hp)
  case call nnn =>
    obtain ⟨u, hp, rfl⟩ := exec_call_next h
    exact exec_call_of_push (State.push_withStDraws b d hp)
  case skp x =>
    obtain ⟨k, hk, rfl⟩ := exec_skp_next h
    exact (exec_skp_of_key (s := s.withStDraws b d) hk).trans (congrArg _ (State.skipIf_withStDraws s _ b d))
  case sknp x =>
    obtain ⟨k, hk, rfl⟩ := exec_sknp_next h
    exact (exec_sknp_of_key (s := s.withStDraws b d) hk).trans (congrArg _ (State.skipIf_withStDraws s _ b d))
  case ldVxK x =>
    rcases exec_ldVxK_next h with ⟨hk, rfl⟩ | ⟨k, hk, rfl⟩
    · exact exec_ldVxK_of_noKey hk
    · exact exec_ldVxK_of_key hk
  case seImm | sneImm | seReg | sneReg => cases h; exact congrArg _ (State.skipIf_withStDraws s _ b d)
  case ldB | ldMemVx => cases h; exact congrArg _ (State.storeBytes_withStDraws s _ _ b d)
  all_goals cases h; rfl

/-- Of the instructions, only Cxkk moves the draw counter. -/
theorem exec_draws {i : Instr} {s t : State} (hrnd : ∀ x kk, i ≠ .rnd x kk) (h : exec i s = .next t) :
    t.draws = s.draws := by
  refine exec_changesOnly h .draws (fun hw => ?_)
  cases i
  case rnd x kk => exact hrnd x kk rfl
  all_goals simp [writes, storedAt] at hw

theorem exec_setSt {i : Instr} {s t : State} (b : Byte) (hst : ∀ x, i ≠ .ldStVx x) (h : exec i s = .next t) :
    exec i (s.setSt b) = .next (t.setSt b) := by
  by_cases hrnd : ∃ x kk, i = .rnd x kk
  · obtain ⟨x, kk, rfl⟩ := hrnd
    cases h
    rfl
  · have hrnd' : ∀ x kk, i ≠ .rnd x kk := fun x kk hi => hrnd ⟨x, kk, hi⟩
    have hx := exec_withStDraws b s.draws hrnd' hst h
    rwa [State.withStDraws_draws_self, ← exec_draws hrnd' h, State.withStDraws_draws_self] at hx

theorem exec_withDraws {i : Instr} {s t : State} (d : Nat) (hrnd : ∀ x kk, i ≠ .rnd x kk) (h : exec i s = .next t) :
    exec i (s.withDraws d) = .next (t.withDraws d) := by
  by_cases hst : ∃ x, i = .ldStVx x
  · obtain ⟨x, rfl⟩ := hst
    cases h
    rfl
  · have hst' : ∀ x, i ≠ .ldStVx x := fun x hi => hst ⟨x, hi⟩
    have hsame : t.st = s.st := (exec_timers h).2.resolve_right hst
    have hx := exec_withStDraws s.st d hrnd hst' h
    rwa [State.withStDraws_st_self, ← hsame, State.withStDraws_st_self] at hx

/-- Settles O50: Fx18 puts the same value in ST whatever was there; every other instruction keeps the one given. -/
theorem noInstructionReadsTheSoundTimer : Obligations.NoInstructionReadsTheSoundTimer := by
  unfold Obligations.NoInstructionReadsTheSoundTimer
  intro i s t b h
  by_cases hst : ∃ x, i = .ldStVx x
  · obtain ⟨x, rfl⟩ := hst
    cases h
    exact ⟨s.setSt (s.readV x), rfl, rfl, .inr ⟨x, rfl, rfl⟩⟩
  · exact ⟨t.setSt b, exec_setSt b (fun x hi => hst ⟨x, hi⟩) h, rfl, .inl rfl⟩

/-- Settles O12: the step decodes the same word, and its instruction does the same (`exec_withDraws`); an error does not
depend on the counter by O13. -/
theorem stepDependsOnTheStateAndTheDrawAlone : Obligations.StepDependsOnTheStateAndTheDrawAlone := by
  unfold Obligations.StepDependsOnTheStateAndTheDrawAlone
  refine fun s d => ⟨fun hrnd => ⟨fun t h => ?_, fun f h => ?_⟩, fun hdraw x kk hi t h => ?_⟩
  · obtain ⟨hpc, i, hi, hx⟩ := step_next h
    have hstep : step (s.withDraws d) = exec i (s.advance.withDraws d) := step_of_decode (s := s.withDraws d) hpc hi
    rw [hstep]
    exact exec_withDraws d (fun x kk hir => hrnd x kk (hir ▸ hi)) hx
  · exact errorsDependOnPcMemorySpAndRegisters s (s.withDraws d) f rfl (fun _ => rfl) rfl (fun _ => rfl) h
  · have hpc := (step_next h).1
    have hstep : step (s.withDraws d) = exec (.rnd x kk) (s.advance.withDraws d) :=
      step_of_decode (s := s.withDraws d) hpc hi
    rw [step_of_decode hpc hi, exec_rnd] at h
    cases h
    rw [hstep, exec_rnd, State.withDraws_draws, hdraw]
    rfl

/-! ### The counter along a schedule -/

theorem resetWith_draws (font : Font) (s : State) : (resetWith font s).draws = s.draws := by
  unfold resetWith
  rw [State.storeBytes_draws, State.withDraws_draws]

theorem loadProgram_draws {bytes : List Byte} {s t : State} (h : loadProgram bytes s = .next t) : t.draws = s.draws := by
  unfold loadProgram at h
  split at h
  · cases h
  · cases h; exact State.storeBytes_draws s _ bytes

/-- The step that runs a Cxkk moves the counter on by one. -/
theorem perform_draws_of_rnd {font : Font} {s : State} {x : Nibble} {kk : Byte} (hpc : s.pc.toNat < 0xFFF)
    (hi : decodeWord s.opcodeAtPc = .ok (.rnd x kk)) : (HostOp.step.perform font s).1.draws = s.draws + 1 := by
  have happly : HostOp.step.apply font s = exec (.rnd x kk) s.advance := step_of_decode hpc hi
  rw [exec_rnd] at happly
  rw [perform_of_next happly, State.withDraws_draws, State.advance_draws]

/-- Every other operation of the host leaves it alone, completed or not. -/
theorem perform_draws_of_not_rnd {font : Font} {op : HostOp} {s : State}
    (h : ¬ (op = .step ∧ s.pc.toNat < 0xFFF ∧ ∃ x kk, decodeWord s.opcodeAtPc = .ok (.rnd x kk))) :
    (op.perform font s).1.draws = s.draws := by
  rcases perform_fst_cases font op s with happly | hsame
  · cases op with
    | reset => exact resetWith_draws font s
    | loadProgram bytes => exact loadProgram_draws happly
    | step =>
      obtain ⟨hpc, i, hi, hx⟩ := step_next happly
      exact exec_draws (s := s.advance) (fun x kk hir => h ⟨rfl, hpc, x, kk, hir ▸ hi⟩) hx
    | tick | setKeypad | readFramebuffer | readTimers => rfl
  · rw [hsame]

theorem perform_draws_le (font : Font) (op : HostOp) (s : State) : s.draws ≤ (op.perform font s).1.draws := by
  by_cases h : op = .step ∧ s.pc.toNat < 0xFFF ∧ ∃ x kk, decodeWord s.opcodeAtPc = .ok (.rnd x kk)
  · obtain ⟨rfl, hpc, x, kk, hi⟩ := h
    rw [perform_draws_of_rnd hpc hi]
    exact Nat.le_succ _
  · rw [perform_draws_of_not_rnd h]

/-- Settles O57: one operation by `perform_draws_of_rnd` and `perform_draws_of_not_rnd`, a schedule by induction. -/
theorem noScheduleRepeatsADraw : Obligations.NoScheduleRepeatsADraw := by
  unfold Obligations.NoScheduleRepeatsADraw
  refine ⟨fun font op s => ⟨?_, perform_draws_of_not_rnd⟩, fun font ops => ?_⟩
  · rintro ⟨rfl, hpc, x, kk, hi⟩
    exact perform_draws_of_rnd hpc hi
  · induction ops with
    | nil => exact fun s => Nat.le_refl s.draws
    | cons op ops ih => exact fun s => (perform_draws_le font op s).trans (ih _)

end Sys2Proof.Machine
end

section
/-! PROOF. Memory as data (log entry 9): a canonical list is determined by what it reads. -/

namespace Sys2Proof.Machine

theorem Memory.wfFrom_cons {lo k : Nat} {b : Byte} {m : Memory} :
    Memory.wfFrom lo ((k, b) :: m) = true ↔
      lo ≤ k ∧ k < 4096 ∧ b ≠ Memory.unlisted k ∧ Memory.wfFrom (k + 1) m = true := by
  simp [Memory.wfFrom, and_assoc]

theorem Memory.lookup_cons_self (k : Nat) (b : Byte) (m : Memory) : Memory.lookup ((k, b) :: m) k = some b := by
  simp [Memory.lookup]

/-- A canonical memory lists addresses below 4096 only, and no byte that the address reads as anyway. -/
theorem Memory.of_lookup_eq_some {m : Memory} {lo a : Nat} {b : Byte} (hm : m.wfFrom lo = true)
    (h : m.lookup a = some b) : a < 4096 ∧ b ≠ Memory.unlisted a := by
  induction m generalizing lo with
  | nil => cases h
  | cons c m ih =>
    obtain ⟨k, d⟩ := c
    obtain ⟨_, hk, hd, hrest⟩ := Memory.wfFrom_cons.mp hm
    unfold Memory.lookup at h
    split at h
    · next he => cases h; subst he; exact ⟨hk, hd⟩
    · exact ih hrest h

/-- In canonical memories equal reads come from equal listings: a listed byte differs from the unlisted one. -/
theorem Memory.lookup_eq_of_read_eq {m m' : Memory} (hm : m.wf = true) (hm' : m'.wf = true)
    (hread : ∀ a, a < 4096 → m.read a = m'.read a) (a : Nat) : m.lookup a = m'.lookup a := by
  unfold Memory.read at hread
  cases h : m.lookup a with
  | none =>
    cases h' : m'.lookup a with
    | none => rfl
    | some b' =>
      obtain ⟨ha, hb⟩ := Memory.of_lookup_eq_some hm' h'
      have hsame := hread a ha
      rw [h, h'] at hsame
      exact absurd hsame.symm hb
  | some b =>
    obtain ⟨ha, hb⟩ := Memory.of_lookup_eq_some hm h
    have hsame := hread a ha
    cases h' : m'.lookup a with
    | none =>
      rw [h, h'] at hsame
      exact absurd hsame hb
    | some b' =>
      rw [h, h'] at hsame
      exact congrArg some hsame

/-- A rising list lists nothing below its first address. -/
theorem Memory.first_le_of_lookup {m : Memory} {lo k a : Nat} {b c : Byte} (hm : Memory.wfFrom lo ((k, b) :: m) = true)
    (h : Memory.lookup ((k, b) :: m) a = some c) : k ≤ a := by
  obtain ⟨_, hk⟩ := Memory.wfFrom_cons.mp hm
  refine Nat.le_of_not_lt (fun hlt => ?_)
  rw [Memory.lookup_below (Memory.wfFrom_cons.mpr ⟨Nat.le_refl k, hk⟩) hlt] at h
  cases h

/-- Rising lists with equal listings are equal: the first address of each is listed in the other, so it is the first there
too. -/
theorem Memory.eq_of_lookup_eq {m m' : Memory} {lo lo' : Nat} (hm : m.wfFrom lo = true) (hm' : m'.wfFrom lo' = true)
    (h : ∀ a, m.lookup a = m'.lookup a) : m = m' := by
  induction m generalizing m' lo lo' with
  | nil =>
    cases m' with
    | nil => rfl
    | cons c' m' =>
      have hfirst := h c'.1
      rw [Memory.lookup_cons_self] at hfirst
      cases hfirst
  | cons c m ih =>
    obtain ⟨k, d⟩ := c
    cases m' with
    | nil =>
      have hfirst := h k
      rw [Memory.lookup_cons_self] at hfirst
      cases hfirst
    | cons c' m' =>
      obtain ⟨k', d'⟩ := c'
      obtain ⟨_, _, _, hrest⟩ := Memory.wfFrom_cons.mp hm
      obtain ⟨_, _, _, hrest'⟩ := Memory.wfFrom_cons.mp hm'
      have hfirst := h k
      have hfirst' := h k'
      rw [Memory.lookup_cons_self] at hfirst hfirst'
      have hkk : k = k' :=
        Nat.le_antisymm (Memory.first_le_of_lookup hm hfirst') (Memory.first_le_of_lookup hm' hfirst.symm)
      subst hkk
      rw [Memory.lookup_cons_self] at hfirst
      cases hfirst
      refine congrArg _ (ih hrest hrest' (fun a => ?_))
      by_cases ha : a < k + 1
      · rw [Memory.lookup_below hrest ha, Memory.lookup_below hrest' ha]
      · have hne : k ≠ a := by omega
        simpa [Memory.lookup, hne] using h a

/-- Settles O19: equal reads mean equal listings, and those mean equal lists. -/
theorem canonicalMemoriesThatReadAlikeAreEqual : Obligations.CanonicalMemoriesThatReadAlikeAreEqual := by
  unfold Obligations.CanonicalMemoriesThatReadAlikeAreEqual
  exact fun m m' hm hm' hread => Memory.eq_of_lookup_eq hm hm' (Memory.lookup_eq_of_read_eq hm hm' hread)

end Sys2Proof.Machine
end

section
/-! PROOF. The stores and loads at I (41_index_memory.md R123 to R125): one `storeBytes` or one `writeRange`, whose bytes are
read back one by one. -/

namespace Sys2Proof.Machine

/-- Byte `r` of a store at I is at the effective address `I + r`. -/
theorem State.memRead_storeBytes_atI (s : State) (bytes : List Byte) (hlen : bytes.length ≤ 4096) (r : Nat)
    (hr : r < bytes.length) : (s.storeBytes (s.atI 0) bytes).memRead (s.atI r) = bytes[r] :=
  State.memRead_storeBytes s (s.atI 0) bytes hlen r hr

/-- Settles O31: the three stored bytes are the digits of a number below 256. -/
theorem decimalStoreWritesTheDigits : Obligations.DecimalStoreWritesTheDigits := by
  unfold Obligations.DecimalStoreWritesTheDigits
  intro x s
  have hstored := State.memRead_storeBytes_atI s (decimalDigits (s.readV x)) (by simp [decimalDigits])
  have h0 := hstored 0 (by simp [decimalDigits])
  have h1 := hstored 1 (by simp [decimalDigits])
  have h2 := hstored 2 (by simp [decimalDigits])
  have hv := (s.readV x).isLt
  refine ⟨_, rfl, ?_⟩
  rw [h0, h1, h2]
  simp only [decimalDigits, List.getElem_cons_zero, List.getElem_cons_succ, BitVec.toNat_ofNat]
  exact ⟨by omega, by omega, by omega, by omega, changesOnly_storeBytes s _ (decimalDigits (s.readV x))⟩

/-- Fx55 leaves Vr at `I + r` for every r up to x. -/
theorem memRead_storeRegisters {x : Nibble} {s t : State} (h : exec (.ldMemVx x) s = .next t) {r : Nat}
    (hr : r ≤ x.toNat) : t.memRead (s.atI r) = s.readV (BitVec.ofNat 4 r) := by
  cases h
  have hx := x.isLt
  have hlen := State.length_readRange s x
  rw [State.memRead_storeBytes_atI s (s.readRange x) (by omega) r (by omega), State.getElem_readRange]

/-- Settles O32: the store is of V0 to Vx in register order. -/
theorem storeRegistersWritesV0ToVx : Obligations.StoreRegistersWritesV0ToVx := by
  unfold Obligations.StoreRegistersWritesV0ToVx
  refine fun x s => ⟨_, rfl, fun r hr => ?_, changesOnly_storeRegisters s x⟩
  rw [memRead_storeRegisters rfl hr, BitVec.ofNat_toNat, BitVec.setWidth_eq]

/-- Fx65 gives Vr the byte at `I + r` for every r up to x. -/
theorem readV_loadRegisters {x : Nibble} {s t : State} (h : exec (.ldVxMem x) s = .next t) {r : Nibble}
    (hr : r.toNat ≤ x.toNat) : t.readV r = s.memRead (s.atI r.toNat) := by
  cases h
  have hlt : r.toNat < (s.loadBytes (s.atI 0) (x.toNat + 1)).length := by
    rw [State.length_loadBytes]; omega
  rw [State.readV_writeRange, if_pos hr, List.getD_eq_getElem _ _ hlt, State.getElem_loadBytes]
  rfl

/-- Settles O33: all the bytes are read from the state before. -/
theorem loadRegistersReadsV0ToVx : Obligations.LoadRegistersReadsV0ToVx := by
  unfold Obligations.LoadRegistersReadsV0ToVx
  exact fun x s => ⟨_, rfl, fun r hr => readV_loadRegisters rfl hr, changesOnly_writeRange s x _⟩

/-- Settles O34: the store left I alone, so the load reads the stored bytes at the same addresses. -/
theorem storeThenLoadRestoresTheRegisters : Obligations.StoreThenLoadRestoresTheRegisters := by
  unfold Obligations.StoreThenLoadRestoresTheRegisters
  refine fun x s t u h hi hmem => ⟨_, rfl, fun r hr => ?_⟩
  have hti : t.i = s.i := exec_changesOnly h .i (by simp [writes, storedAt])
  calc _ = u.memRead (u.atI r.toNat) := readV_loadRegisters rfl hr
    _ = t.memRead (s.atI r.toNat) := by unfold State.memRead State.atI; rw [hmem, hi, hti]
    _ = s.readV (BitVec.ofNat 4 r.toNat) := memRead_storeRegisters h hr
    _ = s.readV r := by rw [BitVec.ofNat_toNat, BitVec.setWidth_eq]

/-- Settles O20: a fetch below 0xFFF reads the two bytes at `pc` as data reads do, and they are the stored ones. -/
theorem aStoredOpcodeIsFetchedNext : Obligations.AStoredOpcodeIsFetchedNext := by
  unfold Obligations.AStoredOpcodeIsFetchedNext
  intro x k s t h hk hpc hlt
  have hnext : t.pc.toNat + 1 = s.atI (k + 1) := by rw [hpc]; rfl
  rw [fetch_eq_ok.mpr ⟨hlt, rfl⟩, opcodeAtPc_eq hlt, hnext, hpc, memRead_storeRegisters h (by omega),
    memRead_storeRegisters h hk]

end Sys2Proof.Machine
end

section
/-! PROOF. Drawing (42_draw_sprite.md R141, R142): which cells a sprite flips and when it collides, for the whole instruction;
a second draw then flips the same cells back. -/

namespace Sys2Proof.Machine

/-- How far below the origin a screen row lies, going round the 32 rows. -/
def rowOffset (y0 py : Nat) : Nat := (py % 32 + 32 - y0 % 32) % 32

theorem rowOffset_eq_iff {y0 py r : Nat} (hr : r < 32) : rowOffset y0 py = r ↔ py % 32 = (y0 + r) % 32 := by
  unfold rowOffset; omega

theorem rowOffset_mod (y0 py : Nat) : rowOffset (y0 % 32) py = rowOffset y0 py := by
  unfold rowOffset; omega

theorem columnOffset_mod (x0 px : Nat) : columnOffset (x0 % 64) px = columnOffset x0 px := by
  unfold columnOffset; omega

/-- Does the sprite have a set bit for this cell? -/
def State.spriteFlips (s : State) (x y n : Nibble) (px py : Nat) : Bool :=
  decide (rowOffset (s.readV y).toNat py < n.toNat) && decide (columnOffset (s.readV x).toNat px < 8) &&
    spriteBit (s.memRead (s.atI (rowOffset (s.readV y).toNat py))) (columnOffset (s.readV x).toNat px)

/-- Some set bit of the sprite lands on a cell that is on. -/
def State.SpriteCollides (s : State) (x y n : Nibble) : Prop :=
  ∃ r c, r < n.toNat ∧ c < 8 ∧ (s.memRead (s.atI r)).getLsbD (7 - c) = true ∧
    s.fb.cell ((s.readV x).toNat + c) ((s.readV y).toNat + r) = true

/-- At the cell of row `r` and column `c` of the sprite, the flip is bit `7 - c` of byte `r`. -/
theorem State.spriteFlips_of_covers (s : State) (x y : Nibble) {n : Nibble} {r c px py : Nat} (hr : r < n.toNat)
    (hc : c < 8) (hx : px % 64 = ((s.readV x).toNat + c) % 64) (hy : py % 32 = ((s.readV y).toNat + r) % 32) :
    s.spriteFlips x y n px py = (s.memRead (s.atI r)).getLsbD (7 - c) := by
  have hn := n.isLt
  have hrow : rowOffset (s.readV y).toNat py = r := (rowOffset_eq_iff (by omega)).mpr hy
  have hcol : columnOffset (s.readV x).toNat px = c := (columnOffset_eq_iff (by omega)).mpr hx
  simp [State.spriteFlips, hrow, hcol, hr, hc, spriteBit]

/-- A cell that the sprite does not cover is not flipped. -/
theorem State.spriteFlips_of_not_covers (s : State) (x y n : Nibble) {px py : Nat}
    (h : ∀ r c, r < n.toNat → c < 8 →
      px % 64 ≠ ((s.readV x).toNat + c) % 64 ∨ py % 32 ≠ ((s.readV y).toNat + r) % 32) :
    s.spriteFlips x y n px py = false := by
  have hn := n.isLt
  by_cases hr : rowOffset (s.readV y).toNat py < n.toNat
  · by_cases hc : columnOffset (s.readV x).toNat px < 8
    · rcases h _ _ hr hc with hx | hy
      · exact absurd ((columnOffset_eq_iff (by omega)).mp rfl) hx
      · exact absurd ((rowOffset_eq_iff (by omega)).mp rfl) hy
    · simp [State.spriteFlips, hc]
  · simp [State.spriteFlips, hr]

/-! ### The two results of `State.sprite` -/

theorem State.sprite_cell (s : State) (x y n : Nibble) (px py : Nat) :
    (s.sprite x y n).1.cell px py = (s.fb.cell px py ^^ s.spriteFlips x y n px py) := by
  have hn := n.isLt
  have hlen := State.length_spriteRows s n
  have hrow : ∀ k, k < 32 → (py % 32 = ((s.readV y).toNat % 32 + (0 + k)) % 32 ↔ rowOffset (s.readV y).toNat py = k) := by
    intro k hk
    rw [rowOffset_eq_iff hk]
    omega
  unfold State.sprite State.spriteFlips
  by_cases hr : rowOffset (s.readV y).toNat py < n.toNat
  · rw [drawRows_cell_row _ _ _ _ _ _ _ (by omega) _ (hlen ▸ hr) ((hrow _ (by omega)).mpr rfl),
      State.getElem_spriteRows, columnOffset_mod]
    simp [hr]
  · rw [drawRows_cell_outside]
    · simp [hr]
    · intro k hk hy
      have := (hrow k (by omega)).mp hy
      omega

theorem State.sprite_collision (s : State) (x y n : Nibble) : (s.sprite x y n).2 = true ↔ s.SpriteCollides x y n := by
  have hn := n.isLt
  have hlen := State.length_spriteRows s n
  have hcell : ∀ r c, s.fb.cell ((s.readV x).toNat % 64 + c) ((s.readV y).toNat % 32 + (0 + r)) =
      s.fb.cell ((s.readV x).toNat + c) ((s.readV y).toNat + r) := by
    intro r c
    rw [← Framebuffer.cell_mod, ← Framebuffer.cell_mod s.fb ((s.readV x).toNat + c)]
    congr 1 <;> omega
  unfold State.sprite State.SpriteCollides
  rw [drawRows_collision _ _ _ _ _ (by omega)]
  simp only [hcell, spriteBit, State.getElem_spriteRows, hlen]
  constructor
  · rintro (h | ⟨r, hr, c, hc, hbit, hon⟩)
    · cases h
    · exact ⟨r, c, hr, hc, hbit, hon⟩
  · rintro ⟨r, c, hr, hc, hbit, hon⟩
    exact .inr ⟨r, hr, c, hc, hbit, hon⟩

/-! ### What Dxyn leaves -/

theorem flagByte_eq_one {b : Bool} : flagByte b = 1#8 ↔ b = true := by
  cases b <;> decide

theorem flagByte_eq_zero {b : Bool} : flagByte b = 0#8 ↔ b = false := by
  cases b <;> decide

theorem exec_drw_cell {x y n : Nibble} {s t : State} (h : exec (.drw x y n) s = .next t) (px py : Nat) :
    t.fb.cell px py = (s.fb.cell px py ^^ s.spriteFlips x y n px py) := by
  cases h
  exact State.sprite_cell s x y n px py

theorem exec_drw_vf {x y n : Nibble} {s t : State} (h : exec (.drw x y n) s = .next t) :
    t.readV 0xF#4 = flagByte (s.sprite x y n).2 := by
  cases h
  exact State.readV_writeV_self _ _ _

theorem exec_drw_vf_eq_one {x y n : Nibble} {s t : State} (h : exec (.drw x y n) s = .next t) :
    t.readV 0xF#4 = 1#8 ↔ s.SpriteCollides x y n := by
  rw [exec_drw_vf h, flagByte_eq_one, State.sprite_collision]

theorem exec_drw_vf_eq_zero {x y n : Nibble} {s t : State} (h : exec (.drw x y n) s = .next t) :
    t.readV 0xF#4 = 0#8 ↔ ¬ s.SpriteCollides x y n := by
  rw [exec_drw_vf h, flagByte_eq_zero, ← State.sprite_collision, Bool.not_eq_true]

/-- Settles O36: each cell is flipped by its own bit of the sprite, if it has one, and VF is the collision. -/
theorem drawFlipsTheSpriteAndReportsCollision : Obligations.DrawFlipsTheSpriteAndReportsCollision := by
  unfold Obligations.DrawFlipsTheSpriteAndReportsCollision
  intro x y n s
  refine ⟨_, rfl, fun r c hr hc => ?_, fun px py hout => ?_, (exec_drw_vf_eq_one rfl).mpr, fun hoff => ?_,
    changesOnly_draw s _ _⟩
  · rw [exec_drw_cell rfl, State.spriteFlips_of_covers s x y hr hc (by omega) (by omega)]
  · have hpx := Nat.mod_eq_of_lt px.isLt
    have hpy := Nat.mod_eq_of_lt py.isLt
    rw [exec_drw_cell rfl, State.spriteFlips_of_not_covers s x y n (by rw [hpx, hpy]; exact hout), Bool.xor_false]
  · refine (exec_drw_vf_eq_zero rfl).mpr ?_
    rintro ⟨r, c, hr, hc, hbit, hon⟩
    rw [hoff r c hr hc hbit] at hon
    cases hon

/-- Drawing leaves I and memory alone. -/
theorem exec_drw_sprite_bytes {x y n : Nibble} {s t : State} (h : exec (.drw x y n) s = .next t) (r : Nat) :
    t.memRead (t.atI r) = s.memRead (s.atI r) := by
  cases h
  rfl

/-- Settles O37: with Vx and Vy as before the second draw flips the same cells, and the cell of a set bit is on before it
exactly when it was off before the first. -/
theorem drawingTwiceRestoresTheScreen : Obligations.DrawingTwiceRestoresTheScreen := by
  unfold Obligations.DrawingTwiceRestoresTheScreen
  intro x y n s t h hx hy
  have hflips : ∀ px py, t.spriteFlips x y n px py = s.spriteFlips x y n px py := by
    intro px py
    simp only [State.spriteFlips, hx, hy, exec_drw_sprite_bytes h]
  have hset : ∀ r c, r < n.toNat → c < 8 → (s.memRead (s.atI r)).getLsbD (7 - c) = true →
      t.fb.cell ((s.readV x).toNat + c) ((s.readV y).toNat + r) =
        !s.fb.cell ((s.readV x).toNat + c) ((s.readV y).toNat + r) := by
    intro r c hr hc hbit
    rw [exec_drw_cell h, State.spriteFlips_of_covers s x y hr hc rfl rfl, hbit, Bool.xor_true]
  refine ⟨_, rfl, fun px py => ?_, (exec_drw_vf_eq_one rfl).trans ⟨?_, ?_⟩⟩
  · rw [exec_drw_cell (s := t) rfl, exec_drw_cell h, hflips, Bool.xor_assoc, Bool.xor_self, Bool.xor_false]
  · rintro ⟨r, c, hr, hc, hbit, hon⟩
    rw [exec_drw_sprite_bytes h] at hbit
    rw [hx, hy, hset r c hr hc hbit] at hon
    exact ⟨r, c, hr, hc, hbit, by simpa using hon⟩
  · rintro ⟨r, c, hr, hc, hbit, hoff⟩
    refine ⟨r, c, hr, hc, by rw [exec_drw_sprite_bytes h]; exact hbit, ?_⟩
    rw [hx, hy, hset r c hr hc hbit, hoff]
    rfl

end Sys2Proof.Machine
end

section
/-! PROOF. The arithmetic and logic of 40_arith_logic.md and the sums of I and `pc` (R103 to R110, R121, R122, R168): one
write of a result, or the flag and then the result. -/

namespace Sys2Proof.Machine

/-- An instruction that is one write of a byte to Vx writes that byte's bits and nothing else. -/
theorem exec_writeV_bits {i : Instr} {s : State} {x : Nibble} {b : Byte} {bit : Nat → Bool}
    (h : exec i s = .next (s.writeV x b)) (hb : ∀ k, b.getLsbD k = bit k) :
    ∃ t, exec i s = .next t ∧ ChangesOnly (fun p => p = .v x) s t ∧ ∀ k, k < 8 → (t.readV x).getLsbD k = bit k :=
  ⟨s.writeV x b, h, changesOnly_writeV s x b, fun k _ => by rw [State.readV_writeV_self, hb]⟩

/-- Settles O24: each instruction is one write of a bitwise result. -/
theorem bitwiseOperationsLeaveVfAlone : Obligations.BitwiseOperationsLeaveVfAlone := by
  unfold Obligations.BitwiseOperationsLeaveVfAlone
  exact fun x y s => ⟨exec_writeV_bits rfl fun _ => BitVec.getLsbD_or, exec_writeV_bits rfl fun _ => BitVec.getLsbD_and,
    exec_writeV_bits rfl fun _ => BitVec.getLsbD_xor⟩

/-- The result stands in Vx, whichever register that is. -/
theorem State.readV_result (s : State) (x : Nibble) (flag : Bool) (b : Byte) :
    (s.writeFlagThenResult x flag b).readV x = b := by
  rw [State.readV_writeFlagThenResult, if_pos rfl]

/-- The flag stands in VF, unless the result went there (decision D6). -/
theorem State.readV_flag (s : State) {x : Nibble} (flag : Bool) (b : Byte) (hx : x ≠ 0xF#4) :
    (s.writeFlagThenResult x flag b).readV 0xF#4 = flagByte flag := by
  rw [State.readV_writeFlagThenResult, if_neg hx.symm, if_pos rfl]

theorem flagByte_decide (P : Prop) [Decidable P] : flagByte (decide P) = if P then 1#8 else 0#8 := by
  simp [flagByte]

/-- Settles O25: the flag is the carry of the exact sum, the result its low byte. -/
theorem addRegistersSetsTheCarry : Obligations.AddRegistersSetsTheCarry := by
  unfold Obligations.AddRegistersSetsTheCarry
  refine fun x y s => ⟨_, rfl, ?_, fun hx => ?_, changesOnly_writeFlagThenResult s x _ _⟩
  · rw [State.readV_result, BitVec.toNat_add]
  · rw [State.readV_flag s _ _ hx, carryOut, flagByte_decide]

theorem toNat_sub_byte (a b : Byte) : (a - b).toNat = (a.toNat + 256 - b.toNat) % 256 := by
  have := b.isLt
  rw [BitVec.toNat_sub]
  omega

/-- Settles O26: both instructions write the strict comparison of the same two bytes they subtract. -/
theorem subtractionsSetTheStrictFlag : Obligations.SubtractionsSetTheStrictFlag := by
  unfold Obligations.SubtractionsSetTheStrictFlag
  intro x y s
  constructor
  · refine ⟨_, rfl, ?_, fun hx => ?_, changesOnly_writeFlagThenResult s x _ _⟩
    · rw [State.readV_result, toNat_sub_byte]
    · rw [State.readV_flag s _ _ hx, strictlyGreater, flagByte_decide]
  · refine ⟨_, rfl, ?_, fun hx => ?_, changesOnly_writeFlagThenResult s x _ _⟩
    · rw [State.readV_result, toNat_sub_byte]
    · rw [State.readV_flag s _ _ hx, strictlyGreater, flagByte_decide]

theorem toNat_flagByte_lowBit (a : Byte) : (flagByte (lowBit a)).toNat = a.toNat % 2 := by
  revert a; decide

theorem toNat_flagByte_highBit (a : Byte) : (flagByte (highBit a)).toNat = a.toNat / 128 := by
  revert a; decide

/-- Settles O27: the meanings of the shifts do not mention y. -/
theorem shiftsPutTheLostBitInVf : Obligations.ShiftsPutTheLostBitInVf := by
  unfold Obligations.ShiftsPutTheLostBitInVf
  intro x y s
  constructor
  · refine ⟨_, rfl, ?_, fun hx => ?_, changesOnly_writeFlagThenResult s x _ _, fun _ => rfl⟩
    · rw [State.readV_result, BitVec.toNat_ushiftRight, Nat.shiftRight_eq_div_pow]
    · rw [State.readV_flag s _ _ hx, toNat_flagByte_lowBit]
  · refine ⟨_, rfl, ?_, fun hx => ?_, changesOnly_writeFlagThenResult s x _ _, fun _ => rfl⟩
    · rw [State.readV_result, BitVec.toNat_shiftLeft, Nat.shiftLeft_eq]
    · rw [State.readV_flag s _ _ hx, toNat_flagByte_highBit]

/-- Settles O29: the one write of the reduced sum to I. -/
theorem addToIndexWrapsWithoutFlag : Obligations.AddToIndexWrapsWithoutFlag := by
  unfold Obligations.AddToIndexWrapsWithoutFlag
  exact fun x s => ⟨s.setI (s.indexPlus x), rfl, State.toNat_indexPlus s x, changesOnly_setI s _⟩

/-- Settles O30: the one write of the exact product and sum, which fit in 16 bits. -/
theorem fontIndexPointsAtTheGlyph : Obligations.FontIndexPointsAtTheGlyph := by
  unfold Obligations.FontIndexPointsAtTheGlyph
  exact fun x s => ⟨s.setI (s.glyphAddress x), rfl, State.toNat_glyphAddress s x, changesOnly_setI s _⟩

/-- Settles O44: the one write of the exact sum, which fits in 16 bits, to `pc`. -/
theorem jumpPlusV0AddsExactly : Obligations.JumpPlusV0AddsExactly := by
  unfold Obligations.JumpPlusV0AddsExactly
  exact fun nnn s => ⟨s.jump (s.indexedTarget nnn), rfl, State.toNat_indexedTarget s nnn, changesOnly_jump s _⟩

end Sys2Proof.Machine
end

section
/-! PROOF. The calling convention (43_control_flow.md), and the keypad and the draw (44_timer_input_random.md R180 to R182,
R184). -/

namespace Sys2Proof.Machine

/-- Settles O41: the CALL's push left the return address on the slot the RET pops, and each leaves the slots below alone. -/
theorem returnComesBackBehindTheCall : Obligations.ReturnComesBackBehindTheCall := by
  unfold Obligations.ReturnComesBackBehindTheCall
  intro nnn s t u h hsp hstack
  obtain ⟨v, hpush, rfl⟩ := exec_call_next h
  obtain ⟨hlt, _⟩ := State.push_eq_some hpush
  obtain ⟨_, hpush', hslot, hvsp⟩ := State.push_of_sp_eq (j := ⟨s.sp.val, hlt⟩) s.pc rfl
  cases hpush.symm.trans hpush'
  obtain ⟨w, hpop, hwsp⟩ := State.pop_of_sp_succ (s := u) (j := ⟨s.sp.val, hlt⟩) (by rw [hsp]; exact hvsp)
  refine ⟨_, exec_ret_of_pop hpop, ?_, Fin.ext hwsp, fun j hj => ?_⟩
  · rw [State.jump_pc, hstack]
    exact hslot
  · have hne : ¬ (Part.slot j = .sp ∨ ∃ k : Fin 16, k.val = s.sp.val ∧ Part.slot j = .slot k) := by
      rintro (he | ⟨k, hk, he⟩)
      · cases he
      · cases he; omega
    have hcall : v.stack[j] = s.stack[j] := changesOnly_push hpush (.slot j) hne
    have hret : w.stack[j] = u.stack[j] := changesOnly_pop hpop (.slot j) (by simp)
    rw [State.jump_stack, hret, hstack]
    exact hcall

/-- Settles O45: the draw is ANDed with kk whatever byte it is, so no bit outside kk is set. -/
theorem randomIsMaskedByTheImmediate : Obligations.RandomIsMaskedByTheImmediate := by
  unfold Obligations.RandomIsMaskedByTheImmediate
  refine fun x kk s => ⟨_, rfl, ?_, fun k _ hbit => ?_, rfl, changesOnly_rnd x kk s⟩
  · rintro b rfl
    exact State.readV_writeV_self _ _ _
  · rw [State.readV_writeV_self, BitVec.getLsbD_and, Bool.and_eq_true] at hbit
    exact hbit.2

/-- Settles O46: with a key's number in Vx each instruction is one skip; above 0xF it raises. -/
theorem keySkipsReadTheNamedKey : Obligations.KeySkipsReadTheNamedKey := by
  unfold Obligations.KeySkipsReadTheNamedKey
  refine fun x s => ⟨fun k hk => ?_, fun hx => ⟨?_, ?_⟩⟩
  · have hkey := State.keyIndex_eq_some.mpr hk
    exact ⟨exec_skipIf (exec_skp_of_key hkey) Iff.rfl, exec_skipIf (exec_sknp_of_key hkey) (iff_of_eq (Bool.not_eq_true' _))⟩
  · rw [exec_skp_of_noKey hx, encode_skp]; rfl
  · rw [exec_sknp_of_noKey hx, encode_sknp]; rfl

/-- The wait takes back the advance, so the state is the one before the step. -/
theorem step_keyWait {s : State} {x : Nibble} (hpc : s.pc.toNat < 0xFFF) (hop : s.opcodeAtPc = wordX 0xF00A#16 x)
    (hup : ∀ k : Nibble, s.keyDown k = false) : step s = .next s := by
  have hword : encode (.ldVxK x) = wordX 0xF00A#16 x := encodeXK_eq_wordX 0xF x 0x0A
  have hi : decodeWord s.opcodeAtPc = .ok (.ldVxK x) := decodeWord_eq_ok.mpr (hop.trans hword.symm)
  calc step s
      _ = exec (.ldVxK x) s.advance := step_of_decode hpc hi
      _ = .next (s.advance.jump s.advance.fetchPc) := exec_ldVxK_of_noKey (State.lowestKeyDown_eq_none.mpr hup)
      _ = .next (s.advance.jump s.pc) := by rw [fetchPc_advance]
      _ = .next s := rfl

/-- Settles O48: the key found is the lowest one down, and none is found exactly when none is down. -/
theorem keyWaitTakesTheLowestKey : Obligations.KeyWaitTakesTheLowestKey := by
  unfold Obligations.KeyWaitTakesTheLowestKey
  refine fun x => ⟨fun s k hdown hlow => ?_, fun s hup => ?_, fun s => step_keyWait⟩
  · refine ⟨_, exec_ldVxK_of_key (State.lowestKeyDown_eq_some.mpr ⟨hdown, hlow⟩), ?_, changesOnly_writeV s x _⟩
    have := k.isLt
    rw [State.readV_writeV_self, BitVec.toNat_setWidth, Nat.mod_eq_of_lt (by omega)]
  · exact ⟨_, exec_ldVxK_of_noKey (State.lowestKeyDown_eq_none.mpr hup), rfl, changesOnly_jump s _⟩

end Sys2Proof.Machine
end

section
/-! PROOF. Reset (10_state.md R35, 70_reset_and_hazards.md R231, R232): the font is stored in the listed state. -/

namespace Sys2Proof.Machine

theorem memRead_resetWith_outside (font : Font) (s : State) {a : Nat} (ha : a < 4096) (h : a < 0x050 ∨ 0x0A0 ≤ a) :
    (resetWith font s).memRead a = 0#8 := by
  have hread : (resetWith font s).memRead a = State.reset.memRead a := by
    refine State.memRead_storeBytes_outside _ _ _ _ (fun r hr => ?_)
    have hr80 : r < 80 := by simpa using hr
    have : Config.fontBase = 0x050 := rfl
    omega
  rw [hread]
  show Memory.unlisted (a % 4096) = 0#8
  rw [Nat.mod_eq_of_lt ha]
  unfold Memory.unlisted
  split
  · rfl
  · have hlen : (fontLow ++ fontHigh).length = 80 := rfl
    refine List.getD_eq_default _ _ ?_
    have : Config.fontBase = 0x050 := rfl
    omega

theorem memRead_resetWith_font (font : Font) (s : State) {a : Nat} {b : Byte} (h : font.toList[a - 0x050]? = some b)
    (ha : 0x050 ≤ a) : (resetWith font s).memRead a = b := by
  obtain ⟨hlt, hb⟩ := List.getElem?_eq_some_iff.mp h
  have hstored := State.memRead_storeBytes (State.reset.withDraws s.draws) 0x050 font.toList (by simp) (a - 0x050) hlt
  rw [Nat.add_sub_cancel' ha, hb] at hstored
  exact hstored

/-- The default FONT is what its addresses read as unlisted, so storing it lists nothing. -/
theorem resetWith_fontDefault (s : State) : resetWith fontDefault s = State.reset.withDraws s.draws := by
  have hstore : State.reset.storeBytes Config.fontBase fontDefault.toList = State.reset := by decide
  unfold resetWith
  rw [State.storeBytes_withDraws, hstore]

theorem resetWith_resetWith (font : Font) (s : State) : resetWith font (resetWith font s) = resetWith font s := by
  have hdraws := resetWith_draws font s
  calc resetWith font (resetWith font s)
      _ = (State.reset.withDraws (resetWith font s).draws).storeBytes Config.fontBase font.toList := rfl
      _ = resetWith font s := by rw [hdraws]; rfl

/-- Settles O51: reset stores the font in a memory that reads 0 outside it and sets every other element to its value. -/
theorem resetGivesTheListedValues : Obligations.ResetGivesTheListedValues := by
  unfold Obligations.ResetGivesTheListedValues
  refine ⟨fun font s t r h => ?_, resetWith_fontDefault, resetWith_draws, resetWith_resetWith⟩
  have hperform : HostOp.reset.perform font s = (resetWith font s, .ok) := rfl
  cases h.symm.trans hperform
  refine ⟨rfl, ?v, ?i, ?pc, ?sp, ?stack, ?dt, ?st, fun a b hb ha => memRead_resetWith_font font s hb ha,
    fun a ha => memRead_resetWith_outside font s a.isLt ha, ?fb, ?key⟩
  case v => intro x; simp [resetWith, State.readV, State.reset]
  case i => exact State.storeBytes_i _ _ _
  case pc => exact State.storeBytes_pc _ _ _
  case sp => exact congrArg Fin.val (State.storeBytes_sp _ _ _)
  case stack => intro j; simp [resetWith, State.reset]
  case dt => exact State.storeBytes_dt _ _ _
  case st => exact State.storeBytes_st _ _ _
  case fb =>
    intro x y
    have hfb : (resetWith font s).fb = Framebuffer.clear := State.storeBytes_fb _ _ _
    rw [hfb, Framebuffer.cell_clear]
  case key => intro k; simp [resetWith, State.keyDown, State.reset]

end Sys2Proof.Machine
end

section
/-! PROOF. Load-program and what the first step then runs (70_reset_and_hazards.md R233 to R235, R243). -/

namespace Sys2Proof.Machine

theorem perform_loadProgram_of_fits {font : Font} {bytes : List Byte} {s : State} (h : bytes.length ≤ 3584) :
    (HostOp.loadProgram bytes).perform font s = (s.storeBytes 0x200 bytes, .ok) :=
  perform_of_next (if_neg (Nat.not_lt.mpr h))

theorem perform_loadProgram_of_tooLarge {font : Font} {bytes : List Byte} {s : State} (h : 3584 < bytes.length) :
    (HostOp.loadProgram bytes).perform font s = (s, .err (.programTooLarge bytes.length)) :=
  perform_of_fault (if_pos h)

/-- Settles O52: the length decides, and what is accepted is one store at 0x200. -/
theorem loadProgramWritesItsBytesOnly : Obligations.LoadProgramWritesItsBytesOnly := by
  unfold Obligations.LoadProgramWritesItsBytesOnly
  refine fun font bytes s => ⟨fun hfits => ?_, perform_loadProgram_of_tooLarge⟩
  refine ⟨_, perform_loadProgram_of_fits hfits, fun j b hj => ?_, changesOnly_storeBytes s 0x200 bytes⟩
  obtain ⟨hlt, rfl⟩ := List.getElem?_eq_some_iff.mp hj
  exact State.memRead_storeBytes s 0x200 bytes (by omega) j hlt

theorem resetWith_pc (font : Font) (s : State) : (resetWith font s).pc = 0x200#16 := State.storeBytes_pc _ _ _

/-- Settles O53: the loaded bytes 0 and 1 are the opcode at the reset value of `pc`. -/
theorem theFirstStepRunsTheLoadedOpcode : Obligations.TheFirstStepRunsTheLoadedOpcode := by
  unfold Obligations.TheFirstStepRunsTheLoadedOpcode
  intro font s hi lo rest i t h hi'
  by_cases hfits : (hi :: lo :: rest).length ≤ 3584
  · cases h.symm.trans (perform_loadProgram_of_fits hfits)
    have hpc : ((resetWith font s).storeBytes 0x200 (hi :: lo :: rest)).pc = 0x200#16 := by
      rw [State.storeBytes_pc, resetWith_pc]
    have hstored := State.memRead_storeBytes (resetWith font s) 0x200 (hi :: lo :: rest) (by omega)
    have hop : ((resetWith font s).storeBytes 0x200 (hi :: lo :: rest)).opcodeAtPc = wordOfBytes hi lo := by
      rw [opcodeAtPc_eq (by rw [hpc]; decide), hpc]
      exact congrArg₂ wordOfBytes (hstored 0 (by simp)) (hstored 1 (by simp))
    rw [step_of_decode (by rw [hpc]; decide) (hop ▸ hi')]
    unfold State.advance State.jump
    rw [hpc]
    rfl
  · cases h.symm.trans (perform_loadProgram_of_tooLarge (Nat.lt_of_not_le hfits))

/-- Settles O54: memory reads 0 at 0x200 and 0x201, and the word 0 is undefined. -/
theorem aStepBeforeAnyLoadIsUnknownOpcode : Obligations.AStepBeforeAnyLoadIsUnknownOpcode := by
  unfold Obligations.AStepBeforeAnyLoadIsUnknownOpcode
  intro font s
  have hpc := resetWith_pc font s
  have hlt : (resetWith font s).pc.toNat < 0xFFF := by rw [hpc]; decide
  have hop : (resetWith font s).opcodeAtPc = 0x0000#16 := by
    rw [opcodeAtPc_eq hlt, hpc, memRead_resetWith_outside font s (by decide) (by decide),
      memRead_resetWith_outside font s (by decide) (by decide)]
    rfl
  have hundef : UndefinedWord (resetWith font s).opcodeAtPc := by
    rw [hop]
    unfold UndefinedWord
    decide
  rw [step_eq_fault_iff.mpr (.inr (.inl ⟨hlt, hundef, rfl⟩)), hop, hpc]

end Sys2Proof.Machine
end

section
/-! PROOF. The tick, the keypad and the two reads of the host (60_exceptions.md R212, R214). -/

namespace Sys2Proof.Machine

theorem changesOnly_tick (s : State) : ChangesOnly (fun p => p = .dt ∨ p = .st) s (tick s) :=
  ((changesOnly_setDt s _).mono fun _ h => .inl h).trans ((changesOnly_setSt _ _).mono fun _ h => .inr h)

/-- Settles O55, by induction on the number of ticks. -/
theorem ticksCountDownToZero : Obligations.TicksCountDownToZero := by
  unfold Obligations.TicksCountDownToZero
  intro n
  induction n with
  | zero => exact fun s => ⟨rfl, rfl, ChangesOnly.refl _ s⟩
  | succ n ih =>
    intro s
    obtain ⟨hdt, hst, hframe⟩ := ih (tick s)
    rw [toNat_tick_dt] at hdt
    rw [toNat_tick_st] at hst
    exact ⟨by rw [ticks, hdt]; omega, by rw [ticks, hst]; omega, (changesOnly_tick s).trans hframe⟩

theorem changesOnly_setKeypad (k : Keypad) (s : State) : ChangesOnly (fun p => ∃ j, p = .key j) s (setKeypad k s) := by
  intro p hp
  cases p with
  | key j => exact absurd ⟨j, rfl⟩ hp
  | _ => rfl

theorem readFramebuffer_eq_flatten (s : State) : readFramebuffer s = s.fb.flatten.toList := by
  simp [readFramebuffer, Vector.flatten]
  rfl

theorem length_readFramebuffer (s : State) : (readFramebuffer s).length = 2048 := by
  rw [readFramebuffer_eq_flatten, Vector.length_toList]

theorem getElem?_readFramebuffer (s : State) (x : Fin 64) (y : Fin 32) :
    (readFramebuffer s)[y.val * 64 + x.val]? = some (s.fb.cell x.val y.val) := by
  have hx := x.isLt
  have hy := y.isLt
  have hrow : (y.val * 64 + x.val) / 64 = y.val % 32 := by omega
  have hcol : (y.val * 64 + x.val) % 64 = x.val % 64 := by omega
  rw [readFramebuffer_eq_flatten, Vector.getElem?_toList, Vector.getElem?_flatten, dif_pos (by omega)]
  simp only [hrow, hcol]
  rfl

/-- Settles O56: the flat framebuffer is the screen's rows one after another, so its index splits into row and column by 64. -/
theorem theHostReadsAndWritesAsListed : Obligations.TheHostReadsAndWritesAsListed := by
  unfold Obligations.TheHostReadsAndWritesAsListed
  exact fun font s => ⟨fun k => ⟨setKeypad k s, rfl, fun _ => rfl, changesOnly_setKeypad k s⟩, length_readFramebuffer s,
    getElem?_readFramebuffer s, rfl, rfl, rfl⟩

end Sys2Proof.Machine
end
